-- ==== Sys2Proof/Word.lean ====
section
/-! DEFINITION. The byte and the byte sequence (00_scope.md R6, R7). -/

namespace Sys2Proof

/-- A byte: 8 bits, bit 0 least significant (R6). -/
abbrev Byte := BitVec 8

/-- A finite sequence of bytes, first byte first (R7). -/
abbrev Bytes := List Byte

end Sys2Proof
end

