-- ==== Sys2Proof/Machine/State.lean ====
section
/-! DEFINITION. The state of the machine: the block's three pieces of state (10_state.md R10) and the model's own
command port, the reasons a step can stop, and the state after reset. -/

namespace Sys2Proof.Machine

/-- The complete architectural state of the block (10_state.md R10). -/
structure Block where
  /-- The running checksum of the CRC engine (R11). -/
  crc : BitVec 16
  /-- Received bytes not yet consumed or discarded, first received first (R12). -/
  rbuf : List (BitVec 8)
  /-- FAULT in bit 7, reserved bits 6:4, CAUSE in bits 3:0 (R13). -/
  status : BitVec 8
  deriving DecidableEq, Repr

/-- What the world outside the block can present to it. -/
inductive HostEvent where
  /-- One command packet on the command port (30_encoding.md R45). -/
  | command (packet : List (BitVec 8))
  /-- The platform's reset (70_reset_and_hazards.md R160). -/
  | platformReset
  deriving DecidableEq, Repr

/-- The block and its command port. `inbox` and `outbox` are the model's own fields, not the spec's state: a step takes
no argument, so what the host has presented and what the block has answered stand here. DESIGN CHOICE, safe (log entry 2). -/
structure State where
  /-- The block's state (R10). -/
  block : Block
  /-- What the host has presented and the block has not yet taken, first first. -/
  inbox : List HostEvent
  /-- The response packets the block has given, first first (30_encoding.md R48). -/
  outbox : List (List (BitVec 8))
  deriving DecidableEq, Repr

/-- Reasons for which a step stops with a fault: none. Every outcome the spec gives, Fault(ShortLength) included, is a
response after which the block goes on (44_system.md R130, 60_exceptions.md R140, R149); nobody raises a fault of this type,
which is safe. -/
inductive Fault : Type
  deriving DecidableEq, Repr

/-- Reasons for which a step has no meaning. -/
inductive Refusal where
  /-- Raised by `exec` for an instruction that has no meaning yet: none is left. Safe: the machine stops there. -/
  | notModelled (mnemonic : String)
  deriving DecidableEq, Repr

/-- The reset values of 10_state.md R24. -/
def Block.reset : Block := { crc := 0x0000, rbuf := [], status := 0x00 }

/-- The machine right after reset (10_state.md R24, 70_reset_and_hazards.md R160): the block waits, nothing has been
presented or answered. -/
def State.reset : State := { block := Block.reset, inbox := [], outbox := [] }

end Sys2Proof.Machine
end

