-- ==== Sys2Proof/Machine/Flags.lean ====
section
/-! DEFINITION. The fields of STATUS (10_state.md R13), the only flags of the block (R17). -/

namespace Sys2Proof.Machine

/-- The causes of a fault that are ever produced (R13). -/
inductive Cause where
  /-- Fault(ShortLength) (60_exceptions.md R148). -/
  | shortLength
  deriving DecidableEq, Repr

/-- The code of a cause in CAUSE (R13). -/
def Cause.code : Cause → BitVec 4
  | .shortLength => 1

/-- FAULT, bit 7 (R13). -/
def statusFault (status : BitVec 8) : Bool := status.getLsbD 7

/-- CAUSE, bits 3:0 (R13). -/
def statusCause (status : BitVec 8) : BitVec 4 := status.extractLsb' 0 4

/-- STATUS as it is read: bits 6:4 read as 0 (R13). DEDUCED, safe (log entry 8). -/
def statusRead (status : BitVec 8) : BitVec 8 := status &&& 0x8F

/-- FAULT <- 1 and CAUSE <- code; bits 6:4 are never written (R13). -/
def statusWithFault (status : BitVec 8) (code : BitVec 4) : BitVec 8 :=
  (status &&& 0x70) ||| 0x80 ||| code.zeroExtend 8

/-- The block is faulted (60_exceptions.md R149). -/
def Block.faulted (b : Block) : Bool := statusFault b.status

/-- The stored cause. -/
def Block.cause (b : Block) : BitVec 4 := statusCause b.status

end Sys2Proof.Machine
end

