-- ==== Sys2Proof/Syntax.lean ====
section
/-! DEFINITION. The commands of the block as data: declared types, values, the one inductive `Instr` with a
constructor per row of spec/opcode_table.json, the reasons a packet spells no command, and the pseudo-commands. -/

namespace Sys2Proof

/-- The declared types with a code of their own (30_encoding.md R57). -/
inductive DeclType where
  | i8 | u8 | i16 | u16 | i32 | u32 | bool | float | string
  deriving DecidableEq, Repr

/-- A value on the value port (42_value.md R100). -/
inductive Value where
  /-- `NUM c`: the number c / 100, c a signed 64-bit integer in two's complement (R58, R100). -/
  | num (c : BitVec 64)
  /-- `BOOL t`. -/
  | bool (t : Bool)
  /-- `F32 p`: an IEEE-754 single precision pattern, carried uninterpreted. -/
  | f32 (p : BitVec 32)
  /-- `STR s`: the UTF-8 bytes of a text, without terminator. -/
  | str (s : Bytes)
  deriving DecidableEq, Repr

/-- The commands of the block: one constructor per row of spec/opcode_table.json (30_encoding.md R46, R67).
Operand order is that of R46; `exp` is the operand byte of R59, read signed by the meanings. -/
inductive Instr where
  /-- NOP (R131). -/
  | nop
  /-- CRC.CLR (R73). -/
  | crcClr
  /-- CRC.UPD b (R74). -/
  | crcUpd (b : Byte)
  /-- CRC.RD (R75). -/
  | crcRd
  /-- CRC16 buf (R76). -/
  | crc16 (buf : Bytes)
  /-- FENC dest, src, func, payload (R82). -/
  | fenc (dest src : BitVec 16) (func : Byte) (payload : Bytes)
  /-- FDEC body (R84). -/
  | fdec (body : Bytes)
  /-- VENC, the k = 1 row of R67: decoded only for a type code of 9 to 255 (R128). -/
  | venc (type exp : Byte) (value : Value)
  /-- VDEC, the k = 1 row of R67: decoded only for a type code of 9 to 255 (R128). -/
  | vdec (type exp : Byte) (data : Bytes)
  /-- RSM.FEED chunk (R90). -/
  | rsmFeed (chunk : Bytes)
  /-- RSM.RST (R97). -/
  | rsmRst
  /-- RSM.LVL (R98). -/
  | rsmLvl
  /-- RDSTAT (R132). -/
  | rdstat
  /-- RESET (R133). -/
  | reset
  /-- VENC I8 (R107). -/
  | vencI8 (exp : Byte) (value : Value)
  /-- VENC U8 (R108). -/
  | vencU8 (exp : Byte) (value : Value)
  /-- VENC I16 (R109). -/
  | vencI16 (exp : Byte) (value : Value)
  /-- VENC U16, the source's WORD (R110). -/
  | vencU16 (exp : Byte) (value : Value)
  /-- VENC I32 (R111). -/
  | vencI32 (exp : Byte) (value : Value)
  /-- VENC U32 (R112). -/
  | vencU32 (exp : Byte) (value : Value)
  /-- VENC BOOL (R113). -/
  | vencBool (exp : Byte) (value : Value)
  /-- VENC FLOAT (R114). -/
  | vencFloat (exp : Byte) (value : Value)
  /-- VENC STRING (R115). -/
  | vencString (exp : Byte) (value : Value)
  /-- VDEC I8 (R121). -/
  | vdecI8 (exp : Byte) (data : Bytes)
  /-- VDEC U8 (R122). -/
  | vdecU8 (exp : Byte) (data : Bytes)
  /-- VDEC I16 (R123). -/
  | vdecI16 (exp : Byte) (data : Bytes)
  /-- VDEC U16, the source's WORD (R124). -/
  | vdecU16 (exp : Byte) (data : Bytes)
  /-- VDEC I32 (R125). -/
  | vdecI32 (exp : Byte) (data : Bytes)
  /-- VDEC U32 (R126). -/
  | vdecU32 (exp : Byte) (data : Bytes)
  /-- VDEC BOOL (R119). -/
  | vdecBool (exp : Byte) (data : Bytes)
  /-- VDEC FLOAT (R118). -/
  | vdecFloat (exp : Byte) (data : Bytes)
  /-- VDEC STRING (R120). -/
  | vdecString (exp : Byte) (data : Bytes)
  deriving DecidableEq, Repr

/-- Why a packet spells no command. All of them are answered IllegalCommand (30_encoding.md R60); the reason is
the model's own and reaches no response. -/
inductive Illegal where
  /-- The empty packet. -/
  | emptyPacket
  /-- An opcode that R46 does not list. -/
  | unknownOpcode (op : Byte)
  /-- Fewer bytes than the format and the packet's own count fields imply (R47). -/
  | truncated
  /-- More bytes than the format and the packet's own count fields imply (R47). -/
  | trailingBytes
  /-- A value tag other than 0 to 3 (R47). -/
  | badTag (tag : Byte)
  /-- A BOOL byte other than 0x00 and 0x01 (R47). -/
  | badBool (b : Byte)
  deriving DecidableEq, Repr

/-- The pseudo-commands of 30_encoding.md R66. -/
inductive Pseudo where
  /-- `CRC.STREAM [b0 ... bn-1]`. -/
  | crcStream (bytes : Bytes)
  /-- `VENC WORD`: the source's name for U16. -/
  | vencWord (exp : Byte) (value : Value)
  /-- `VDEC WORD`: the source's name for U16. -/
  | vdecWord (exp : Byte) (data : Bytes)
  /-- `XFER.BEGIN`: the start of a transaction. -/
  | xferBegin
  deriving DecidableEq, Repr

end Sys2Proof
end

