-- ==== Sys2Proof/Config.lean ====
section
/-! DEFINITION. What an implementation of the block fixes (00_scope.md R5) and the one value the spec leaves open. -/

namespace Sys2Proof

/-- `SCALE_SIGN`: +1 or -1 (00_scope.md R5, 92_eei_decisions.md D7). -/
inductive ScaleSign where
  | plus | minus
  deriving DecidableEq, Repr, Inhabited

/-- `ROUND_TIE` (00_scope.md R5, 92_eei_decisions.md D8). -/
inductive RoundTie where
  | halfEven | halfAway
  deriving DecidableEq, Repr, Inhabited

/-- A bounded `RBUF_CAP`: at least 65541, the longest frame (43_reassembler.md R91). -/
structure Cap where
  bytes : Nat
  atLeast : 65541 ≤ bytes
  deriving DecidableEq, Repr

/-- The OPEN parameters of 00_scope.md R5. They are arguments of the rules, not state, and do not change over a run. -/
structure Params where
  scaleSign : ScaleSign
  roundTie : RoundTie
  /-- `none` is `unbounded`. -/
  rbufCap : Option Cap
  /-- `none` is `absent`; the arguments are the pattern and k (42_value.md R118). -/
  floatScale : Option (BitVec 32 → Int → Value)
  deriving Inhabited

/-- The parameter set of the block at hand, fixed before the first command (70_reset_and_hazards.md R161) and never
assumed: no value of it can be proved (log entry 1). -/
opaque Config.params : Params

/-- FREE VALUE: the 32-bit count field of a result whose length does not fit 32 bits; 30_encoding.md R48 gives the
field four bytes and states no value for a longer result. DESIGN CHOICE, safe (log entry 6). -/
opaque Config.wideCount : Nat → BitVec 32

/-- `EXP_MIN` (00_scope.md R5). -/
def Config.expMin : Int := -7

/-- `EXP_MAX` (00_scope.md R5). -/
def Config.expMax : Int := 7

end Sys2Proof
end

