-- ==== Sys2Proof/Machine/Bytes.lean ====
section
/-! DEFINITION. The byte-order helpers of 00_scope.md R7 and the count field of the packet formats. -/

namespace Sys2Proof.Machine

/-- `s[a:b]`: the bytes at indices a to b-1, empty when a >= b (R7). -/
def slice (s : Bytes) (a b : Nat) : Bytes := (s.drop a).take (b - a)

/-- `LE16(v) = [v[7:0], v[15:8]]` (R7). -/
def le16 (v : BitVec 16) : Bytes := [v.extractLsb' 0 8, v.extractLsb' 8 8]

/-- `BE16(v) = [v[15:8], v[7:0]]` (R7). -/
def be16 (v : BitVec 16) : Bytes := [v.extractLsb' 8 8, v.extractLsb' 0 8]

/-- `LE_n(v)`: the n bytes of v from least to most significant (R7). -/
def leBytes : Nat → Nat → Bytes
  | 0, _ => []
  | n + 1, v => BitVec.ofNat 8 v :: leBytes n (v / 256)

/-- `unLE(s)`: the sum over i of s[i] * 256^i (R7). -/
def unLE : Bytes → Nat
  | [] => 0
  | b :: s => b.toNat + 256 * unLE s

/-- `unBE16(s) = s[0]*256 + s[1]` (R7). -/
def unBE16 (s : Bytes) : Nat := (s.getD 0 0).toNat * 256 + (s.getD 1 0).toNat

/-- `sext_N(v)`: an N-bit pattern read as signed (R7). -/
def sext (n v : Nat) : Int := if v < 2 ^ (n - 1) then v else (v : Int) - 2 ^ n

/-- A count as the four bytes LE32 of a packet (30_encoding.md R47, R48). A count of 2^32 or more has no such field:
the bytes are then those of a free value (log entry 6). -/
def countBytes (n : Nat) : Bytes :=
  leBytes 4 (if n < 2 ^ 32 then n else (Config.wideCount n).toNat)

end Sys2Proof.Machine
end

