-- ==== Sys2Proof/WellFormed.lean ====
section
/-! DEFINITION. Which terms of `Instr` a packet can spell: counts fit their 32-bit fields (30_encoding.md R47) and the
k = 1 rows VENC and VDEC carry a type code that no k = 2 row has (R67). -/

namespace Sys2Proof

/-- A counted operand fits the field `n[4, LE32]` or `m[4, LE32]` (R47). -/
def Bytes.fitsCount (s : Bytes) : Bool := decide (s.length < 2 ^ 32)

/-- The value's own count field, if it has one, holds its length (R47, R58). -/
def Value.wellFormed : Value → Bool
  | .num _ => true
  | .bool _ => true
  | .f32 _ => true
  | .str s => Bytes.fitsCount s

/-- A type code that is none of 0 to 8 (R57). -/
def unknownType (type : Byte) : Bool := decide (9 ≤ type.toNat)

/-- The terms that some packet spells. -/
def Instr.wellFormed : Instr → Bool
  | .nop => true
  | .crcClr => true
  | .crcUpd _ => true
  | .crcRd => true
  | .crc16 buf => Bytes.fitsCount buf
  | .fenc _ _ _ payload => Bytes.fitsCount payload
  | .fdec body => Bytes.fitsCount body
  | .venc type _ value => unknownType type && value.wellFormed
  | .vdec type _ data => unknownType type && Bytes.fitsCount data
  | .rsmFeed chunk => Bytes.fitsCount chunk
  | .rsmRst => true
  | .rsmLvl => true
  | .rdstat => true
  | .reset => true
  | .vencI8 _ value => value.wellFormed
  | .vencU8 _ value => value.wellFormed
  | .vencI16 _ value => value.wellFormed
  | .vencU16 _ value => value.wellFormed
  | .vencI32 _ value => value.wellFormed
  | .vencU32 _ value => value.wellFormed
  | .vencBool _ value => value.wellFormed
  | .vencFloat _ value => value.wellFormed
  | .vencString _ value => value.wellFormed
  | .vdecI8 _ data => Bytes.fitsCount data
  | .vdecU8 _ data => Bytes.fitsCount data
  | .vdecI16 _ data => Bytes.fitsCount data
  | .vdecU16 _ data => Bytes.fitsCount data
  | .vdecI32 _ data => Bytes.fitsCount data
  | .vdecU32 _ data => Bytes.fitsCount data
  | .vdecBool _ data => Bytes.fitsCount data
  | .vdecFloat _ data => Bytes.fitsCount data
  | .vdecString _ data => Bytes.fitsCount data

end Sys2Proof
end

