-- ==== Sys2Proof/Decode.lean ====
section
/-! DEFINITION. The decoder of command packets (30_encoding.md R45 to R47, R60, R67), total on any bytes and rejecting by
name; after it the encoder, the pseudo-commands' expansions and the host's reading of a row of the opcode table. -/

namespace Sys2Proof

open Sys2Proof.Machine

/-- The next n bytes of the packet and what follows them. -/
def takeBytes (n : Nat) (p : Bytes) : Except Illegal (Bytes × Bytes) :=
  if p.length < n then .error .truncated else .ok (p.take n, p.drop n)

/-- `n[4, LE32] data[n]` and what follows (R47). -/
def takeCounted (p : Bytes) : Except Illegal (Bytes × Bytes) :=
  match takeBytes 4 p with
  | .error e => .error e
  | .ok (n, t) => takeBytes (unLE n) t

/-- The body of a Value with the given tag and what follows (R47, R58). -/
def takeValue (tag : Byte) (p : Bytes) : Except Illegal (Value × Bytes) :=
  match tag.toNat with
  | 0 =>
    match takeBytes 8 p with
    | .error e => .error e
    | .ok (v, t) => .ok (.num (BitVec.ofNat 64 (unLE v)), t)
  | 1 =>
    match p with
    | [] => .error .truncated
    | b :: t =>
      if b = 0 then .ok (.bool false, t) else if b = 1 then .ok (.bool true, t) else .error (.badBool b)
  | 2 =>
    match takeBytes 4 p with
    | .error e => .error e
    | .ok (v, t) => .ok (.f32 (BitVec.ofNat 32 (unLE v)), t)
  | 3 =>
    match takeCounted p with
    | .error e => .error e
    | .ok (s, t) => .ok (.str s, t)
  | _ => .error (.badTag tag)

/-- The VENC row that a type byte selects: the k = 2 rows first (R57, R67). -/
def vencRow (type exp : Byte) (value : Value) : Instr :=
  match type.toNat with
  | 0 => .vencI8 exp value
  | 1 => .vencU8 exp value
  | 2 => .vencI16 exp value
  | 3 => .vencU16 exp value
  | 4 => .vencI32 exp value
  | 5 => .vencU32 exp value
  | 6 => .vencBool exp value
  | 7 => .vencFloat exp value
  | 8 => .vencString exp value
  | _ => .venc type exp value

/-- The VDEC row that a type byte selects: the k = 2 rows first (R57, R67). -/
def vdecRow (type exp : Byte) (data : Bytes) : Instr :=
  match type.toNat with
  | 0 => .vdecI8 exp data
  | 1 => .vdecU8 exp data
  | 2 => .vdecI16 exp data
  | 3 => .vdecU16 exp data
  | 4 => .vdecI32 exp data
  | 5 => .vdecU32 exp data
  | 6 => .vdecBool exp data
  | 7 => .vdecFloat exp data
  | 8 => .vdecString exp data
  | _ => .vdec type exp data

/-- Format B after the opcode (R47). -/
def parseB (mk : Byte → Instr) : Bytes → Except Illegal (Instr × Bytes)
  | b :: t => .ok (mk b, t)
  | [] => .error .truncated

/-- Format S after the opcode (R47). -/
def parseS (mk : Bytes → Instr) (p : Bytes) : Except Illegal (Instr × Bytes) :=
  match takeCounted p with
  | .error e => .error e
  | .ok (d, t) => .ok (mk d, t)

/-- Format F after the opcode (R47). -/
def parseF : Bytes → Except Illegal (Instr × Bytes)
  | d0 :: d1 :: s0 :: s1 :: func :: t =>
    match takeCounted t with
    | .error e => .error e
    | .ok (payload, u) =>
      .ok (.fenc (BitVec.ofNat 16 (unLE [d0, d1])) (BitVec.ofNat 16 (unLE [s0, s1])) func payload, u)
  | _ => .error .truncated

/-- Format V after the opcode (R47). -/
def parseV : Bytes → Except Illegal (Instr × Bytes)
  | type :: exp :: tag :: t =>
    match takeValue tag t with
    | .error e => .error e
    | .ok (value, u) => .ok (vencRow type exp value, u)
  | _ => .error .truncated

/-- Format D after the opcode (R47). -/
def parseD : Bytes → Except Illegal (Instr × Bytes)
  | type :: exp :: t =>
    match takeCounted t with
    | .error e => .error e
    | .ok (data, u) => .ok (vdecRow type exp data, u)
  | _ => .error .truncated

/-- The command at the front of a byte sequence and the bytes after it: the opcode selects the format (R45 to R47). -/
def parse : Bytes → Except Illegal (Instr × Bytes)
  | [] => .error .emptyPacket
  | op :: t =>
    match op.toNat with
    | 0x00 => .ok (.nop, t)
    | 0x01 => .ok (.crcClr, t)
    | 0x02 => parseB .crcUpd t
    | 0x03 => .ok (.crcRd, t)
    | 0x04 => parseS .crc16 t
    | 0x10 => parseF t
    | 0x11 => parseS .fdec t
    | 0x20 => parseV t
    | 0x21 => parseD t
    | 0x30 => parseS .rsmFeed t
    | 0x31 => .ok (.rsmRst, t)
    | 0x32 => .ok (.rsmLvl, t)
    | 0x40 => .ok (.rdstat, t)
    | 0xFF => .ok (.reset, t)
    | _ => .error (.unknownOpcode op)

/-- The command a packet spells: well-formed only when nothing follows it (R47), illegal otherwise (R60). -/
def decode (p : Bytes) : Except Illegal Instr :=
  match parse p with
  | .error e => .error e
  | .ok (i, []) => .ok i
  | .ok (_, _ :: _) => .error .trailingBytes

/-- `tag[1] v[...]`: a Value as format V writes it (R47, R58). -/
def encodeValue : Value → Bytes
  | .num c => 0 :: leBytes 8 c.toNat
  | .bool t => [1, if t then 1 else 0]
  | .f32 p => 2 :: leBytes 4 p.toNat
  | .str s => 3 :: (countBytes s.length ++ s)

/-- `n[4, LE32] data[n]` (R47). -/
def encodeCounted (d : Bytes) : Bytes := countBytes d.length ++ d

/-- Format V with a type code (R47, R57). -/
def encodeV (type exp : Byte) (value : Value) : Bytes := 0x20 :: type :: exp :: encodeValue value

/-- Format D with a type code (R47, R57). -/
def encodeD (type exp : Byte) (data : Bytes) : Bytes := 0x21 :: type :: exp :: encodeCounted data

/-- The packet of a command (R46, R47, R57). -/
def encode : Instr → Bytes
  | .nop => [0x00]
  | .crcClr => [0x01]
  | .crcUpd b => [0x02, b]
  | .crcRd => [0x03]
  | .crc16 buf => 0x04 :: encodeCounted buf
  | .fenc dest src func payload => 0x10 :: (le16 dest ++ le16 src ++ [func] ++ encodeCounted payload)
  | .fdec body => 0x11 :: encodeCounted body
  | .venc type exp value => encodeV type exp value
  | .vdec type exp data => encodeD type exp data
  | .rsmFeed chunk => 0x30 :: encodeCounted chunk
  | .rsmRst => [0x31]
  | .rsmLvl => [0x32]
  | .rdstat => [0x40]
  | .reset => [0xFF]
  | .vencI8 exp value => encodeV 0 exp value
  | .vencU8 exp value => encodeV 1 exp value
  | .vencI16 exp value => encodeV 2 exp value
  | .vencU16 exp value => encodeV 3 exp value
  | .vencI32 exp value => encodeV 4 exp value
  | .vencU32 exp value => encodeV 5 exp value
  | .vencBool exp value => encodeV 6 exp value
  | .vencFloat exp value => encodeV 7 exp value
  | .vencString exp value => encodeV 8 exp value
  | .vdecI8 exp data => encodeD 0 exp data
  | .vdecU8 exp data => encodeD 1 exp data
  | .vdecI16 exp data => encodeD 2 exp data
  | .vdecU16 exp data => encodeD 3 exp data
  | .vdecI32 exp data => encodeD 4 exp data
  | .vdecU32 exp data => encodeD 5 exp data
  | .vdecBool exp data => encodeD 6 exp data
  | .vdecFloat exp data => encodeD 7 exp data
  | .vdecString exp data => encodeD 8 exp data

/-- The exact expansion of a pseudo-command (R66). -/
def Pseudo.expand : Pseudo → List Instr
  | .crcStream bytes => .crcClr :: (bytes.map Instr.crcUpd ++ [.crcRd])
  | .vencWord exp value => [.vencU16 exp value]
  | .vdecWord exp data => [.vdecU16 exp data]
  | .xferBegin => [.rsmRst]

/-- The k = nbits/8 bytes of a row's word: R67 reads them as one number with byte 0 the most significant. -/
def tableWordBytes (nbits w : Nat) : Bytes := (leBytes (nbits / 8) w).reverse

/-- The packet of a row's word: its bytes, then zero bytes up to the length the command's format implies. The longest
command whose further bytes are all zero has 12 bytes (format V, tag 0). DEDUCED, safe (log entry 5). -/
def tableWordPacket (nbits w : Nat) : Bytes :=
  let head := tableWordBytes nbits w
  let padded := head ++ List.replicate 16 0
  match parse padded with
  | .error _ => head
  | .ok (_, rest) => padded.take (max head.length (padded.length - rest.length))

/-- The command that the decoder reads from a row's word (the host's numbering of the bits is R67's; log entry 5). -/
def decodeTableWord (nbits w : Nat) : Option Instr :=
  match decode (tableWordPacket nbits w) with
  | .error _ => none
  | .ok i => some i

end Sys2Proof
end

