-- ==== Sys2Proof/Machine/Response.lean ====
section
/-! DEFINITION. Results, responses and their packets (30_encoding.md R48, R49, R65). -/

namespace Sys2Proof.Machine

/-- A frame as data (10_state.md R21). -/
structure Frame where
  dest : BitVec 16
  src : BitVec 16
  func : Byte
  payload : Bytes
  deriving DecidableEq, Repr

/-- What follows the status byte OK (R48). -/
inductive Result where
  | nothing
  | crc (c : BitVec 16)
  | bytes (d : Bytes)
  | frame (f : Frame)
  | value (v : Value)
  | frames (fs : List Frame)
  | level (n : Nat)
  | statusReg (r : Byte)
  deriving DecidableEq, Repr

/-- The error outcomes (R49, 60_exceptions.md R141). -/
inductive Error where
  | encodeError
  | decodeError
  | lengthError
  | illegalCommand
  | bufferOverflow
  | refused
  deriving DecidableEq, Repr

/-- A response: its status and what follows it (R48). -/
inductive Response where
  | ok (r : Result)
  | err (e : Error)
  | faulted (cause : BitVec 4)
  deriving DecidableEq, Repr

/-- The status byte of an error (R49). -/
def Error.code : Error → Byte
  | .encodeError => 0x01
  | .decodeError => 0x02
  | .lengthError => 0x03
  | .illegalCommand => 0x04
  | .bufferOverflow => 0x05
  | .refused => 0x06

/-- `dest[2, LE16] src[2, LE16] func[1] n[4, LE32] payload[n]` (R65). -/
def Frame.marshal (f : Frame) : Bytes :=
  le16 f.dest ++ le16 f.src ++ [f.func] ++ encodeCounted f.payload

/-- The result bytes of each kind of result (R48). A Value is marshalled as in format V. -/
def Result.marshal : Result → Bytes
  | .nothing => []
  | .crc c => le16 c
  | .bytes d => encodeCounted d
  | .frame f => f.marshal
  | .value v => encodeValue v
  | .frames fs => countBytes fs.length ++ (fs.map Frame.marshal).flatten
  | .level n => countBytes n
  | .statusReg r => [r]

/-- The response packet (R48): the status byte of R49, then the result, or STATUS.CAUSE after Faulted. -/
def Response.marshal : Response → Bytes
  | .ok r => 0x00 :: r.marshal
  | .err e => [e.code]
  | .faulted cause => [0x80, cause.zeroExtend 8]

end Sys2Proof.Machine
end

