-- ==== Sys2Proof/Machine/Ops.lean ====
section
/-! DEFINITION. The named operations every meaning is written over: answering, the three ways a command ends
(00_scope.md R8, 44_system.md R130), entering the faulted state and leaving it, and taking the next event from the port. -/

namespace Sys2Proof.Machine

/-- One response packet goes to the host (30_encoding.md R45). -/
def State.respond (s : State) (r : Response) : State :=
  { s with outbox := s.outbox ++ [r.marshal] }

/-- `RbufAppend(s)` (00_scope.md R8). -/
def Block.rbufAppend (b : Block) (s : Bytes) : Block := { b with rbuf := b.rbuf ++ s }

/-- `RbufDrop(n)` (00_scope.md R8). -/
def Block.rbufDrop (b : Block) (n : Nat) : Block := { b with rbuf := b.rbuf.drop n }

/-- `CRC <- c`. -/
def Block.setCrc (b : Block) (c : BitVec 16) : Block := { b with crc := c }

/-- `RBUF <- s`. -/
def Block.setRbuf (b : Block) (s : Bytes) : Block := { b with rbuf := s }

/-- TAKING A FAULT: STATUS.FAULT <- 1, STATUS.CAUSE <- cause, CRC and RBUF unchanged (44_system.md R130 step 3,
60_exceptions.md R148, R152). Nothing is saved and no control is transferred. -/
def Block.raiseFault (b : Block) (c : Cause) : Block :=
  { b with status := statusWithFault b.status c.code }

/-- LEAVING THE FAULTED STATE: there is no return from a fault; the only continuation writes all of the block's state to
its reset values (44_system.md R133, 60_exceptions.md R153). -/
def Block.restart (_ : Block) : Block := { crc := 0x0000, rbuf := [], status := 0x00 }

/-- `RLEVEL = len(RBUF)`, a read-only view (10_state.md R14). -/
def Block.rlevel (b : Block) : Nat := b.rbuf.length

/-- The three ways a command ends (00_scope.md R8). -/
inductive Ending where
  /-- `return ok(result)`, with the block as the command's writes left it. -/
  | ok (b : Block) (r : Result)
  /-- `return err(E)`: no state has been written. -/
  | err (e : Error)
  /-- `raise Fault(cause)`. -/
  | raise (c : Cause)
  deriving DecidableEq, Repr

/-- The end of a command (44_system.md R130 step 3). -/
def State.finish (s : State) : Ending → State
  | .ok b r => { s with block := b }.respond (.ok r)
  | .err e => s.respond (.err e)
  | .raise c => { s with block := s.block.raiseFault c }.respond (.faulted c.code)

/-- A command that is answered even when the block is faulted: NOP, RDSTAT, RESET (44_system.md R130 step 2). -/
def always (s : State) (e : Ending) : Host.Outcome State Fault Refusal :=
  .next (s.finish e)

/-- Every other command: Faulted when the block is faulted, its own rule otherwise (44_system.md R130 steps 2 and 3). -/
def working (s : State) (e : Ending) : Host.Outcome State Fault Refusal :=
  .next (if s.block.faulted then s.respond (.faulted s.block.cause) else s.finish e)

/-- A packet that spells no command: IllegalCommand, state unchanged, faulted or not (44_system.md R130 step 1,
60_exceptions.md R145). -/
def illegal (s : State) : Host.Outcome State Fault Refusal :=
  .next (s.respond (.err .illegalCommand))

/-- The platform's reset: the effect of RESET on the block and no response (70_reset_and_hazards.md R160). What the host
has presented after it stays presented. DESIGN CHOICE, safe (log entry 9). -/
def platformReset (s : State) : Host.Outcome State Fault Refusal :=
  .next { s with block := s.block.restart }

/-- With nothing presented the block waits and does nothing on its own (70_reset_and_hazards.md R160). DEDUCED, safe
(log entry 3). -/
def wait (s : State) : Host.Outcome State Fault Refusal := .next s

/-- The state with the packet presented before everything else: what the next step takes. -/
def State.present (s : State) (packet : Bytes) : State :=
  { s with inbox := .command packet :: s.inbox }

end Sys2Proof.Machine
end

