-- ==== Sys2Proof/Machine/Crc.lean ====
section
/-! DEFINITION. The CRC-16 engine and its commands (40_crc.md). -/

namespace Sys2Proof.Machine

/-- One shift: the high bit is tested before the shift, the polynomial 0x1021 folded in after it (R70). -/
def crcShift (c : BitVec 16) : BitVec 16 :=
  if c.getLsbD 15 then (c <<< 1) ^^^ 0x1021#16 else c <<< 1

/-- n shifts. -/
def crcShifts : Nat → BitVec 16 → BitVec 16
  | 0, c => c
  | n + 1, c => crcShifts n (crcShift c)

/-- `crc_step(c, b)`: the byte goes into bits 15:8, then eight shifts (R70). -/
def crcStep (c : BitVec 16) (b : Byte) : BitVec 16 :=
  crcShifts 8 (c ^^^ (b.zeroExtend 16 <<< 8))

/-- `crc16(s)`: the fold from 0x0000, no final XOR (R71). -/
def crc16 (s : Bytes) : BitVec 16 := s.foldl crcStep 0x0000

/-- CRC.CLR (R73). -/
def execCrcClr (s : State) : Host.Outcome State Fault Refusal :=
  working s (.ok (s.block.setCrc 0x0000) .nothing)

/-- CRC.UPD b (R74). -/
def execCrcUpd (b : Byte) (s : State) : Host.Outcome State Fault Refusal :=
  working s (.ok (s.block.setCrc (crcStep s.block.crc b)) .nothing)

/-- CRC.RD (R75). -/
def execCrcRd (s : State) : Host.Outcome State Fault Refusal :=
  working s (.ok s.block (.crc s.block.crc))

/-- CRC16 buf (R76). -/
def execCrc16 (buf : Bytes) (s : State) : Host.Outcome State Fault Refusal :=
  working s (.ok (s.block.setCrc (crc16 buf)) (.crc (crc16 buf)))

end Sys2Proof.Machine
end

