-- ==== Sys2Proof/Machine/FrameCodec.lean ====
section
/-! DEFINITION. The frame codec and its commands (41_frame.md; the wire frame of 30_encoding.md R50 to R54). -/

namespace Sys2Proof.Machine

/-- The start byte (R54). -/
def startByte : Byte := 0x68

/-- The stop byte (R54). -/
def stopByte : Byte := 0x16

/-- The longest payload the length field can announce (R62, R82). -/
def maxPayload : Nat := 65530

/-- The bytes the checksum covers: length field, dest, src, func, payload (R53, R81). -/
def frameBody (dest src : BitVec 16) (func : Byte) (payload : Bytes) : Bytes :=
  le16 (BitVec.ofNat 16 (5 + payload.length)) ++ le16 dest ++ le16 src ++ [func] ++ payload

/-- `fenc(dest, src, func, payload)`, for payloads of at most 65530 bytes (R81). -/
def fenc (dest src : BitVec 16) (func : Byte) (payload : Bytes) : Bytes :=
  let body := frameBody dest src func payload
  [startByte] ++ body ++ be16 (crc16 body) ++ [stopByte]

/-- `fdec(body)`, for bodies of at least 7 bytes: a positional split with no validation (R83). -/
def fdec (body : Bytes) : Frame :=
  { dest := BitVec.ofNat 16 (unLE (slice body 2 4))
    src := BitVec.ofNat 16 (unLE (slice body 4 6))
    func := body.getD 6 0
    payload := body.drop 7 }

/-- FENC (R82). -/
def execFenc (dest src : BitVec 16) (func : Byte) (payload : Bytes) (s : State) :
    Host.Outcome State Fault Refusal :=
  working s <|
    if maxPayload < payload.length then .err .lengthError
    else .ok s.block (.bytes (fenc dest src func payload))

/-- FDEC (R84). -/
def execFdec (body : Bytes) (s : State) : Host.Outcome State Fault Refusal :=
  working s (if body.length < 7 then .err .decodeError else .ok s.block (.frame (fdec body)))

end Sys2Proof.Machine
end

