-- ==== Sys2Proof/Machine/Reassembler.lean ====
section
/-! DEFINITION. The stream reassembler and its commands (43_reassembler.md). -/

namespace Sys2Proof.Machine

/-- What one pass of the loop of R90 does with the buffer. -/
inductive Pass where
  /-- It waits: the feed ends with this buffer (R92, R93). -/
  | exit (buf : Bytes)
  /-- A candidate is accepted; parsing goes on with the rest (R95). -/
  | accept (f : Frame) (rest : Bytes)
  /-- A candidate is rejected: only its start byte is dropped (R96). -/
  | reject (rest : Bytes)
  /-- A candidate with L < 5 passes both checks (R95). -/
  | shortLength
  deriving DecidableEq, Repr

/-- Steps 1 and 2: everything before the first start byte is discarded, the whole buffer if there is none (R92). -/
def seekStart (buf : Bytes) : Bytes := buf.dropWhile (fun b => b != startByte)

/-- The length field of a buffer that begins with a start byte (R56, R93). -/
def lengthField (buf : Bytes) : Nat := unLE (slice buf 1 3)

/-- Step 5: the checksum over `cand[1 : 3+L]` equals the transmitted one and the last byte is the stop byte (R94). -/
def candidatePasses (cand : Bytes) (L : Nat) : Bool :=
  decide ((crc16 (slice cand 1 (3 + L))).toNat = unBE16 (slice cand (3 + L) (5 + L))) &&
    decide (cand.getD (5 + L) 0 = stopByte)

/-- Steps 3 to 7 on a buffer that is empty or begins with a start byte (R92 to R96). -/
def examine (buf : Bytes) : Pass :=
  if buf.length < 3 then .exit buf
  else
    let L := lengthField buf
    let total := L + 6
    if buf.length < total then .exit buf
    else
      let cand := buf.take total
      if candidatePasses cand L then
        if L < 5 then .shortLength
        else .accept (fdec (slice cand 1 (3 + L))) (buf.drop total)
      else .reject (buf.drop 1)

/-- One pass of the loop (R90). -/
def onePass (buf : Bytes) : Pass := examine (seekStart buf)

/-- How the parse of a buffer ends (R90). -/
inductive Parse where
  /-- The buffer left and the frames extracted, in stream order. -/
  | done (buf : Bytes) (frames : List Frame)
  /-- Fault(ShortLength). -/
  | shortLength
  deriving DecidableEq, Repr

/-- A frame in front of those of the rest. -/
def Parse.cons (f : Frame) : Parse → Parse
  | .done buf frames => .done buf (f :: frames)
  | .shortLength => .shortLength

/-- At most `fuel` passes of the loop (R90). -/
def parsePasses : Nat → Bytes → Parse
  | 0, buf => .done buf []
  | fuel + 1, buf =>
    match onePass buf with
    | .exit rest => .done rest []
    | .accept f rest => (parsePasses fuel rest).cons f
    | .reject rest => parsePasses fuel rest
    | .shortLength => .shortLength

/-- The loop of R90. Every pass exits or shortens the buffer, so one pass more than its length is never used up. -/
def parseStream (buf : Bytes) : Parse := parsePasses (buf.length + 1) buf

/-- `RBUF_CAP` is bounded and n exceeds it (R91). -/
def overflows (P : Params) (n : Nat) : Bool :=
  match P.rbufCap with
  | none => false
  | some cap => decide (cap.bytes < n)

/-- RSM.FEED chunk, the whole rule (R90). -/
def feedEnding (P : Params) (b : Block) (chunk : Bytes) : Ending :=
  if overflows P (b.rbuf.length + chunk.length) then .err .bufferOverflow
  else
    match parseStream (b.rbufAppend chunk).rbuf with
    | .done buf frames => .ok (b.setRbuf buf) (.frames frames)
    | .shortLength => .raise .shortLength

/-- The named states of the reassembler, a function of RBUF (10_state.md R20, 90_conflicts.md C5). -/
inductive Phase where
  | seekStart | haveHeader | haveFrame
  deriving DecidableEq, Repr

/-- `phase(RBUF)` (10_state.md R20). -/
def phase (rbuf : Bytes) : Phase :=
  if rbuf.head? ≠ some startByte ∨ rbuf.length < 3 then .seekStart
  else if rbuf.length < lengthField rbuf + 6 then .haveHeader
  else .haveFrame

/-- RSM.FEED chunk (R90). -/
def execRsmFeed (chunk : Bytes) (s : State) : Host.Outcome State Fault Refusal :=
  working s (feedEnding Config.params s.block chunk)

/-- RSM.RST (R97). -/
def execRsmRst (s : State) : Host.Outcome State Fault Refusal :=
  working s (.ok (s.block.setRbuf []) .nothing)

/-- RSM.LVL (R98). -/
def execRsmLvl (s : State) : Host.Outcome State Fault Refusal :=
  working s (.ok s.block (.level s.block.rlevel))

end Sys2Proof.Machine
end

