-- ==== Sys2Proof/Machine/System.lean ====
section
/-! DEFINITION. The system commands (44_system.md). -/

namespace Sys2Proof.Machine

/-- NOP (R131). -/
def execNop (s : State) : Host.Outcome State Fault Refusal := always s (.ok s.block .nothing)

/-- RDSTAT (R132). -/
def execRdstat (s : State) : Host.Outcome State Fault Refusal :=
  always s (.ok s.block (.statusReg (statusRead s.block.status)))

/-- RESET (R133). -/
def execReset (s : State) : Host.Outcome State Fault Refusal :=
  always s (.ok s.block.restart .nothing)

end Sys2Proof.Machine
end

