-- ==== Sys2Proof/Machine/Operands.lean ====
section
/-! DEFINITION. The operand forms of the value codec: type codes, the integer types, the exponent (30_encoding.md R57, R59,
42_value.md R103, R104). -/

namespace Sys2Proof.Machine

/-- The six integer types (42_value.md R104). -/
inductive IntType where
  | i8 | u8 | i16 | u16 | i32 | u32
  deriving DecidableEq, Repr

/-- The width in bytes, W / 8 (R104). -/
def IntType.width : IntType → Nat
  | .i8 => 1
  | .u8 => 1
  | .i16 => 2
  | .u16 => 2
  | .i32 => 4
  | .u32 => 4

/-- The width in bits, W (R104). -/
def IntType.bits (t : IntType) : Nat := 8 * t.width

/-- Signed or not (R104). -/
def IntType.signed : IntType → Bool
  | .i8 => true
  | .u8 => false
  | .i16 => true
  | .u16 => false
  | .i32 => true
  | .u32 => false

/-- The least value (R104). -/
def IntType.lo : IntType → Int
  | .i8 => -128
  | .u8 => 0
  | .i16 => -32768
  | .u16 => 0
  | .i32 => -2147483648
  | .u32 => 0

/-- The greatest value (R104). -/
def IntType.hi : IntType → Int
  | .i8 => 127
  | .u8 => 255
  | .i16 => 32767
  | .u16 => 65535
  | .i32 => 2147483647
  | .u32 => 4294967295

/-- The declared type of a code; none for 9 to 255 (30_encoding.md R57). -/
def declTypeOf (type : Byte) : Option DeclType :=
  match type.toNat with
  | 0 => some .i8
  | 1 => some .u8
  | 2 => some .i16
  | 3 => some .u16
  | 4 => some .i32
  | 5 => some .u32
  | 6 => some .bool
  | 7 => some .float
  | 8 => some .string
  | _ => none

/-- The operand `exp`: the byte read as signed (R59). -/
def expOf (exp : Byte) : Int := sext 8 exp.toNat

/-- `EXP_MIN <= exp <= EXP_MAX` (42_value.md R103). -/
def expAdmitted (exp : Int) : Bool := decide (Config.expMin ≤ exp ∧ exp ≤ Config.expMax)

/-- `SCALE_SIGN` as a number (00_scope.md R5). -/
def signOf : ScaleSign → Int
  | .plus => 1
  | .minus => -1

end Sys2Proof.Machine
end

