-- ==== Sys2Proof/Machine/ValueCodec.lean ====
section
/-! DEFINITION. The value codec and its commands (42_value.md). Every rule takes the parameters of 00_scope.md R5 as an
argument; the meanings give it `Config.params`. -/

namespace Sys2Proof.Machine

/-- `rnd(p, q, tie)`: the integer nearest to p / q, q > 0 (R101). -/
def rnd (p q : Int) (tie : RoundTie) : Int :=
  let f := p / q
  let r := p - f * q
  if 2 * r < q then f
  else if q < 2 * r then f + 1
  else
    match tie with
    | .halfEven => if f % 2 = 0 then f else f + 1
    | .halfAway => if 0 < p then f + 1 else f

/-- 10^n for a non-negative n. -/
def pow10 (n : Int) : Int := 10 ^ n.toNat

/-- `k = SCALE_SIGN x exp` (R102). -/
def scaleK (P : Params) (exp : Int) : Int := signOf P.scaleSign * exp

/-- `scale_enc(c, exp)`, for exp other than 0 (R102). -/
def scaleEnc (P : Params) (c exp : Int) : Int :=
  let k := scaleK P exp
  if k ≤ -2 then c * pow10 (-k - 2) else rnd c (pow10 (k + 2)) P.roundTie

/-- `scale_dec(raw, exp)`, for exp other than 0 (R102). -/
def scaleDec (P : Params) (raw exp : Int) : Int :=
  let k := scaleK P exp
  if -2 ≤ k then raw * pow10 (k + 2) else rnd raw (pow10 (-k - 2)) P.roundTie

/-- `venc_int(T, exp, c)` (R106), after the checks of R105. -/
def vencInt (P : Params) (T : IntType) (exp c : Int) : Except Error Bytes :=
  if exp = 0 ∧ c % 100 ≠ 0 then .error .encodeError
  else
    let r := if exp = 0 then c / 100 else scaleEnc P c exp
    if r < T.lo ∨ T.hi < r then .error .encodeError
    else .ok (leBytes T.width (r % 2 ^ T.bits).toNat)

/-- VENC of an integer type: kind, exponent, then the type's own rule (R105 to R112). -/
def vencIntType (P : Params) (T : IntType) (exp : Byte) (value : Value) : Except Error Bytes :=
  match value with
  | .num c => if expAdmitted (expOf exp) then vencInt P T (expOf exp) c.toInt else .error .refused
  | .bool _ => .error .encodeError
  | .f32 _ => .error .encodeError
  | .str _ => .error .encodeError

/-- VENC BOOL (R105, R113). -/
def vencBool (exp : Byte) (value : Value) : Except Error Bytes :=
  match value with
  | .bool t => if expOf exp = 0 then .ok [if t then 0x01 else 0x00] else .error .refused
  | .num _ => .error .encodeError
  | .f32 _ => .error .encodeError
  | .str _ => .error .encodeError

/-- VENC FLOAT: exp is ignored (R105, R114). -/
def vencFloat (_exp : Byte) (value : Value) : Except Error Bytes :=
  match value with
  | .f32 p => .ok (leBytes 4 p.toNat)
  | .num _ => .error .encodeError
  | .bool _ => .error .encodeError
  | .str _ => .error .encodeError

/-- VENC STRING: exp is ignored (R105, R115). -/
def vencString (_exp : Byte) (value : Value) : Except Error Bytes :=
  match value with
  | .str s => .ok (s ++ [0x00])
  | .num _ => .error .encodeError
  | .bool _ => .error .encodeError
  | .f32 _ => .error .encodeError

/-- VENC for any type code: the unknown type comes first (R105, R128). -/
def vencAny (P : Params) (type exp : Byte) (value : Value) : Except Error Bytes :=
  match declTypeOf type with
  | none => .error .encodeError
  | some .i8 => vencIntType P .i8 exp value
  | some .u8 => vencIntType P .u8 exp value
  | some .i16 => vencIntType P .i16 exp value
  | some .u16 => vencIntType P .u16 exp value
  | some .i32 => vencIntType P .i32 exp value
  | some .u32 => vencIntType P .u32 exp value
  | some .bool => vencBool exp value
  | some .float => vencFloat exp value
  | some .string => vencString exp value

/-- The integer on the wire: the leading W/8 bytes, read two's complement for a signed type (R117). -/
def rawOf (T : IntType) (data : Bytes) : Int :=
  let u := unLE (slice data 0 T.width)
  if T.signed then sext T.bits u else u

/-- `vdec_int(T, exp, data)`, the hundredths it returns (R117), after the checks of R116. -/
def vdecInt (P : Params) (T : IntType) (exp : Int) (data : Bytes) : Int :=
  if exp = 0 then 100 * rawOf T data else scaleDec P (rawOf T data) exp

/-- VDEC of an integer type: length, exponent, then the type's own rule (R116, R117, R121 to R126). -/
def vdecIntType (P : Params) (T : IntType) (exp : Byte) (data : Bytes) : Except Error Value :=
  if data.length < T.width then .error .decodeError
  else if expAdmitted (expOf exp) then .ok (.num (BitVec.ofInt 64 (vdecInt P T (expOf exp) data)))
  else .error .refused

/-- VDEC BOOL (R116, R119). -/
def vdecBool (exp : Byte) (data : Bytes) : Except Error Value :=
  match data with
  | [] => .error .decodeError
  | b :: _ => if expOf exp = 0 then .ok (.bool (b != 0x00)) else .error .refused

/-- VDEC FLOAT (R116, R118). -/
def vdecFloat (P : Params) (exp : Byte) (data : Bytes) : Except Error Value :=
  if data.length < 4 then .error .decodeError
  else
    let p := BitVec.ofNat 32 (unLE (slice data 0 4))
    if expOf exp = 0 then .ok (.f32 p)
    else if expAdmitted (expOf exp) then
      match P.floatScale with
      | none => .error .refused
      | some scale => .ok (scale p (scaleK P (expOf exp)))
    else .error .refused

/-- VDEC STRING: the bytes before the first 0x00, or all of them; exp is ignored (R116, R120). -/
def vdecString (_exp : Byte) (data : Bytes) : Except Error Value :=
  .ok (.str (data.takeWhile (fun b => b != 0x00)))

/-- VDEC for any type code: the unknown type comes first (R116, R128). -/
def vdecAny (P : Params) (type exp : Byte) (data : Bytes) : Except Error Value :=
  match declTypeOf type with
  | none => .error .decodeError
  | some .i8 => vdecIntType P .i8 exp data
  | some .u8 => vdecIntType P .u8 exp data
  | some .i16 => vdecIntType P .i16 exp data
  | some .u16 => vdecIntType P .u16 exp data
  | some .i32 => vdecIntType P .i32 exp data
  | some .u32 => vdecIntType P .u32 exp data
  | some .bool => vdecBool exp data
  | some .float => vdecFloat P exp data
  | some .string => vdecString exp data

/-- A VENC ends with its payload bytes or an error; no state is read or written (R105). -/
def vencEnding (s : State) : Except Error Bytes → Ending
  | .ok d => .ok s.block (.bytes d)
  | .error e => .err e

/-- A VDEC ends with its Value or an error; no state is read or written (R116). -/
def vdecEnding (s : State) : Except Error Value → Ending
  | .ok v => .ok s.block (.value v)
  | .error e => .err e

/-- VENC, any type code (R105, R128). -/
def execVenc (type exp : Byte) (value : Value) (s : State) : Host.Outcome State Fault Refusal :=
  working s (vencEnding s (vencAny Config.params type exp value))

/-- VDEC, any type code (R116, R128). -/
def execVdec (type exp : Byte) (data : Bytes) (s : State) : Host.Outcome State Fault Refusal :=
  working s (vdecEnding s (vdecAny Config.params type exp data))

/-- VENC I8 (R107). -/
def execVencI8 (exp : Byte) (value : Value) (s : State) : Host.Outcome State Fault Refusal :=
  working s (vencEnding s (vencIntType Config.params .i8 exp value))

/-- VENC U8 (R108). -/
def execVencU8 (exp : Byte) (value : Value) (s : State) : Host.Outcome State Fault Refusal :=
  working s (vencEnding s (vencIntType Config.params .u8 exp value))

/-- VENC I16 (R109). -/
def execVencI16 (exp : Byte) (value : Value) (s : State) : Host.Outcome State Fault Refusal :=
  working s (vencEnding s (vencIntType Config.params .i16 exp value))

/-- VENC U16 (R110). -/
def execVencU16 (exp : Byte) (value : Value) (s : State) : Host.Outcome State Fault Refusal :=
  working s (vencEnding s (vencIntType Config.params .u16 exp value))

/-- VENC I32 (R111). -/
def execVencI32 (exp : Byte) (value : Value) (s : State) : Host.Outcome State Fault Refusal :=
  working s (vencEnding s (vencIntType Config.params .i32 exp value))

/-- VENC U32 (R112). -/
def execVencU32 (exp : Byte) (value : Value) (s : State) : Host.Outcome State Fault Refusal :=
  working s (vencEnding s (vencIntType Config.params .u32 exp value))

/-- VENC BOOL (R113). -/
def execVencBool (exp : Byte) (value : Value) (s : State) : Host.Outcome State Fault Refusal :=
  working s (vencEnding s (vencBool exp value))

/-- VENC FLOAT (R114). -/
def execVencFloat (exp : Byte) (value : Value) (s : State) : Host.Outcome State Fault Refusal :=
  working s (vencEnding s (vencFloat exp value))

/-- VENC STRING (R115). -/
def execVencString (exp : Byte) (value : Value) (s : State) : Host.Outcome State Fault Refusal :=
  working s (vencEnding s (vencString exp value))

/-- VDEC I8 (R121). -/
def execVdecI8 (exp : Byte) (data : Bytes) (s : State) : Host.Outcome State Fault Refusal :=
  working s (vdecEnding s (vdecIntType Config.params .i8 exp data))

/-- VDEC U8 (R122). -/
def execVdecU8 (exp : Byte) (data : Bytes) (s : State) : Host.Outcome State Fault Refusal :=
  working s (vdecEnding s (vdecIntType Config.params .u8 exp data))

/-- VDEC I16 (R123). -/
def execVdecI16 (exp : Byte) (data : Bytes) (s : State) : Host.Outcome State Fault Refusal :=
  working s (vdecEnding s (vdecIntType Config.params .i16 exp data))

/-- VDEC U16 (R124). -/
def execVdecU16 (exp : Byte) (data : Bytes) (s : State) : Host.Outcome State Fault Refusal :=
  working s (vdecEnding s (vdecIntType Config.params .u16 exp data))

/-- VDEC I32 (R125). -/
def execVdecI32 (exp : Byte) (data : Bytes) (s : State) : Host.Outcome State Fault Refusal :=
  working s (vdecEnding s (vdecIntType Config.params .i32 exp data))

/-- VDEC U32 (R126). -/
def execVdecU32 (exp : Byte) (data : Bytes) (s : State) : Host.Outcome State Fault Refusal :=
  working s (vdecEnding s (vdecIntType Config.params .u32 exp data))

/-- VDEC BOOL (R119). -/
def execVdecBool (exp : Byte) (data : Bytes) (s : State) : Host.Outcome State Fault Refusal :=
  working s (vdecEnding s (vdecBool exp data))

/-- VDEC FLOAT (R118). -/
def execVdecFloat (exp : Byte) (data : Bytes) (s : State) : Host.Outcome State Fault Refusal :=
  working s (vdecEnding s (vdecFloat Config.params exp data))

/-- VDEC STRING (R120). -/
def execVdecString (exp : Byte) (data : Bytes) (s : State) : Host.Outcome State Fault Refusal :=
  working s (vdecEnding s (vdecString exp data))

end Sys2Proof.Machine
end

