-- ==== Sys2Proof/Machine/Dispatch.lean ====
section
/-! DEFINITION. The dispatch of a command to its meaning: one arm per constructor of `Instr`. -/

namespace Sys2Proof.Machine

def exec (i : Instr) (s : State) : Host.Outcome State Fault Refusal :=
  match i with
  | .nop => Sys2Proof.Machine.execNop s
  | .crcClr => Sys2Proof.Machine.execCrcClr s
  | .crcUpd b => Sys2Proof.Machine.execCrcUpd b s
  | .crcRd => Sys2Proof.Machine.execCrcRd s
  | .crc16 buf => Sys2Proof.Machine.execCrc16 buf s
  | .fenc dest src func payload => Sys2Proof.Machine.execFenc dest src func payload s
  | .fdec body => Sys2Proof.Machine.execFdec body s
  | .venc type exp value => Sys2Proof.Machine.execVenc type exp value s
  | .vdec type exp data => Sys2Proof.Machine.execVdec type exp data s
  | .rsmFeed chunk => Sys2Proof.Machine.execRsmFeed chunk s
  | .rsmRst => Sys2Proof.Machine.execRsmRst s
  | .rsmLvl => Sys2Proof.Machine.execRsmLvl s
  | .rdstat => Sys2Proof.Machine.execRdstat s
  | .reset => Sys2Proof.Machine.execReset s
  | .vencI8 exp value => Sys2Proof.Machine.execVencI8 exp value s
  | .vencU8 exp value => Sys2Proof.Machine.execVencU8 exp value s
  | .vencI16 exp value => Sys2Proof.Machine.execVencI16 exp value s
  | .vencU16 exp value => Sys2Proof.Machine.execVencU16 exp value s
  | .vencI32 exp value => Sys2Proof.Machine.execVencI32 exp value s
  | .vencU32 exp value => Sys2Proof.Machine.execVencU32 exp value s
  | .vencBool exp value => Sys2Proof.Machine.execVencBool exp value s
  | .vencFloat exp value => Sys2Proof.Machine.execVencFloat exp value s
  | .vencString exp value => Sys2Proof.Machine.execVencString exp value s
  | .vdecI8 exp data => Sys2Proof.Machine.execVdecI8 exp data s
  | .vdecU8 exp data => Sys2Proof.Machine.execVdecU8 exp data s
  | .vdecI16 exp data => Sys2Proof.Machine.execVdecI16 exp data s
  | .vdecU16 exp data => Sys2Proof.Machine.execVdecU16 exp data s
  | .vdecI32 exp data => Sys2Proof.Machine.execVdecI32 exp data s
  | .vdecU32 exp data => Sys2Proof.Machine.execVdecU32 exp data s
  | .vdecBool exp data => Sys2Proof.Machine.execVdecBool exp data s
  | .vdecFloat exp data => Sys2Proof.Machine.execVdecFloat exp data s
  | .vdecString exp data => Sys2Proof.Machine.execVdecString exp data s

end Sys2Proof.Machine
end

