-- ==== Sys2Proof/Machine/Step.lean ====
section
/-! DEFINITION. One step of the machine (44_system.md R130): the next event the host has presented, and its outcome. -/

namespace Sys2Proof.Machine

/-- One step: the next event leaves the port and has its effect (R130); with nothing presented the block waits (R160). -/
def step (s : State) : Host.Outcome State Fault Refusal :=
  match s.inbox with
  | [] => wait s
  | .platformReset :: rest => platformReset { s with inbox := rest }
  | .command packet :: rest =>
    match decode packet with
    | .error _ => illegal { s with inbox := rest }
    | .ok i => exec i { s with inbox := rest }

/-- `s` with the packet of a row's word presented as the next command: the very next step takes it (log entry 4). -/
def State.withFetchWord (s : State) (nbits w : Nat) : State := s.present (tableWordPacket nbits w)

end Sys2Proof.Machine
end

