-- ==== Sys2Proof/Safety.lean ====
section
/-! DEFINITION. The terms claims about the machine are stated in: a running block, the invariant of the block, what a
command may write and read, a well-formed packet by its lengths, and a run as the fold of the commands. -/

namespace Sys2Proof.Machine

/-- The block is not faulted. -/
def State.running (s : State) : Prop := s.block.faulted = false

/-- A good end of a run: "STATUS.FAULT = 0 at the end" (60_exceptions.md R149). -/
abbrev State.goodFinal (s : State) : Prop := s.running

/-- The block has become `b` and has answered one packet; the port is otherwise as it was. -/
def State.answered (s : State) (b : Block) (packet : Bytes) : State :=
  { s with block := b, outbox := s.outbox ++ [packet] }

/-- Between commands RBUF is empty, or begins with 0x68 and is shorter than its own length field implies
(43_reassembler.md R99 a). -/
def rbufSettled (rbuf : Bytes) : Bool :=
  rbuf.isEmpty ||
    (decide (rbuf.head? = some 0x68) && (decide (rbuf.length < 3) || decide (rbuf.length < lengthField rbuf + 6)))

/-- FAULT = 0 implies CAUSE = 0, FAULT = 1 implies CAUSE = 1, bits 6:4 are 0 (10_state.md R13). -/
def statusLegal (status : Byte) : Bool := status == 0x00 || status == 0x81

/-- The invariant of the block: RBUF settled and within RBUF_CAP (10_state.md R12), STATUS legal. -/
def Block.Inv (b : Block) : Prop :=
  rbufSettled b.rbuf = true ∧ overflows Config.params b.rbuf.length = false ∧ statusLegal b.status = true

/-- The commands that write CRC (10_state.md R11). -/
def writesCrc : Instr → Bool
  | .crcClr => true
  | .crcUpd _ => true
  | .crc16 _ => true
  | .reset => true
  | _ => false

/-- The commands that write RBUF (10_state.md R12). -/
def writesRbuf : Instr → Bool
  | .rsmFeed _ => true
  | .rsmRst => true
  | .reset => true
  | _ => false

/-- The commands that write STATUS: the one that can fault, and RESET (10_state.md R13). -/
def writesStatus : Instr → Bool
  | .rsmFeed _ => true
  | .reset => true
  | _ => false

/-- The commands that read CRC (20_memory.md R39). -/
def readsCrc : Instr → Bool
  | .crcUpd _ => true
  | .crcRd => true
  | _ => false

/-- The commands that read RBUF or its length (20_memory.md R39). -/
def readsRbuf : Instr → Bool
  | .rsmFeed _ => true
  | .rsmLvl => true
  | _ => false

/-- The commands that are answered even when the block is faulted (44_system.md R130 step 2). -/
def answersWhenFaulted : Instr → Bool
  | .nop => true
  | .rdstat => true
  | .reset => true
  | _ => false

/-- The VENC row of an integer type. -/
def IntType.venc : IntType → Byte → Value → Instr
  | .i8 => .vencI8
  | .u8 => .vencU8
  | .i16 => .vencI16
  | .u16 => .vencU16
  | .i32 => .vencI32
  | .u32 => .vencU32

/-- The VDEC row of an integer type. -/
def IntType.vdec : IntType → Byte → Bytes → Instr
  | .i8 => .vdecI8
  | .u8 => .vdecU8
  | .i16 => .vdecI16
  | .u16 => .vdecU16
  | .i32 => .vdecI32
  | .u32 => .vdecU32

/-- The total length that a packet's opcode and its own `n`, `m` and `tag` fields imply; none for an opcode outside R46
or a tag above 3 (30_encoding.md R46, R47). -/
def packetLength (p : Bytes) : Option Nat :=
  match (p.getD 0 0).toNat with
  | 0x00 | 0x01 | 0x03 | 0x31 | 0x32 | 0x40 | 0xFF => some 1
  | 0x02 => some 2
  | 0x04 | 0x11 | 0x30 => some (5 + unLE (slice p 1 5))
  | 0x10 => some (10 + unLE (slice p 6 10))
  | 0x20 =>
    match (p.getD 3 0).toNat with
    | 0 => some 12
    | 1 => some 5
    | 2 => some 8
    | 3 => some (8 + unLE (slice p 4 8))
    | _ => none
  | 0x21 => some (7 + unLE (slice p 3 7))
  | _ => none

/-- The BOOL byte of a format V packet with tag 1 is 0x00 or 0x01 (R47). -/
def boolByteLegal (p : Bytes) : Bool :=
  !(p.getD 0 0 == 0x20 && p.getD 3 0 == 0x01) || decide ((p.getD 4 0).toNat ≤ 1)

/-- A well-formed packet (R47), said by lengths and not by decoding. -/
def packetWellFormed (p : Bytes) : Bool :=
  decide (p ≠ []) && decide (packetLength p = some p.length) && boolByteLegal p

/-- n steps, stopping at the first fault or refusal: `Host.Core.run` of this machine, at its own type. -/
def stepTimes : Nat → State → Host.Outcome State Fault Refusal
  | 0, s => .next s
  | n + 1, s =>
    match step s with
    | .next t => stepTimes n t
    | .fault r => .fault r
    | .refused r => .refused r

/-- The fold of the meanings over a sequence of commands (20_memory.md R36). -/
def execAll : List Instr → State → Host.Outcome State Fault Refusal
  | [], s => .next s
  | i :: is, s =>
    match exec i s with
    | .next t => execAll is t
    | .fault r => .fault r
    | .refused r => .refused r

end Sys2Proof.Machine
end

