-- ==== Sys2Proof/Certificates/Slice0/Obligations.lean ====
section
/-! DEFINITION. The statements for the provers. `s.answered b p` is the state whose block is `b` and whose outbox has the one
more response packet `p`, everything else as in `s`: an equation with it says the whole frame of a command. The outbox is the
model's own field for the response of 30_encoding.md R45 (log entry 2). -/

open Sys2Proof Sys2Proof.Machine

/-! ### System family and dispatch (44_system.md, 60_exceptions.md) -/

/-- R24: the state after reset. -/
def Obligations.ResetLeavesTheStatedValues : Prop :=
  State.reset.block.crc = 0x0000 ∧ State.reset.block.rbuf = [] ∧ State.reset.block.rlevel = 0 ∧
    statusFault State.reset.block.status = false ∧ statusCause State.reset.block.status = 0 ∧
    State.reset.block.status.extractLsb' 4 3 = 0

/-- R160: the platform's reset has the effect of the RESET command on the block, and writes every piece of state to its
reset value; with nothing presented the block does nothing. What stays in the port is not said (log entry 9). -/
def Obligations.PlatformResetActsAsReset : Prop :=
  (∀ (s : State) (rest : List HostEvent), s.inbox = .platformReset :: rest →
    ∃ t u, step s = .next t ∧ exec .reset s = .next u ∧ t.block = u.block ∧ t.block = State.reset.block) ∧
  ∀ s : State, s.inbox = [] → step s = .next s

/-- R131: NOP. -/
def Obligations.NopAnswersOkAlways : Prop :=
  encode .nop = [0x00] ∧ ∀ s : State, exec .nop s = .next (s.answered s.block [0x00])

/-- R132: RDSTAT returns STATUS with FAULT in bit 7, zeros in bits 6:4, CAUSE in bits 3:0, faulted or not, and for a legal
STATUS only 0x00 or 0x81. -/
def Obligations.RdstatReturnsStatus : Prop :=
  encode .rdstat = [0x40] ∧ ∀ s : State, ∃ r : Byte,
    exec .rdstat s = .next (s.answered s.block [0x00, r]) ∧
    r.getLsbD 7 = s.block.status.getLsbD 7 ∧ r.extractLsb' 4 3 = 0 ∧
    r.extractLsb' 0 4 = s.block.status.extractLsb' 0 4 ∧
    (statusLegal s.block.status = true → r = 0x00 ∨ r = 0x81)

/-- R133: RESET writes all of the state to the reset values, faulted or not; the platform's reset has the same effect on the
block; and no other command leads out of the faulted state. -/
def Obligations.ResetCommandRestoresEverything : Prop :=
  encode .reset = [0xFF] ∧
  (∀ s : State, exec .reset s = .next (s.answered { crc := 0x0000, rbuf := [], status := 0x00 } [0x00])) ∧
  (∀ (s : State) (rest : List HostEvent), s.inbox = .platformReset :: rest →
    ∃ t, step s = .next t ∧ t.block = { crc := 0x0000, rbuf := [], status := 0x00 }) ∧
  ∀ (i : Instr) (s t : State), s.block.faulted = true → exec i s = .next t → t.block.faulted = false → i = .reset

/-- R149: a faulted block answers NOP and RDSTAT normally; RESET clears the fault and everything else; every other command is
answered 80 and the stored cause and changes nothing; no command but RESET clears the fault, and neither does waiting. -/
def Obligations.FaultedBlockAnswersOnlyItsCause : Prop :=
  ∀ s : State, s.block.faulted = true →
    exec .nop s = .next (s.answered s.block [0x00]) ∧
    exec .rdstat s = .next (s.answered s.block [0x00, 0x80 ||| (s.block.status.extractLsb' 0 4).zeroExtend 8]) ∧
    exec .reset s = .next (s.answered { crc := 0x0000, rbuf := [], status := 0x00 } [0x00]) ∧
    (∀ i : Instr, i ≠ .nop → i ≠ .rdstat → i ≠ .reset →
      exec i s = .next (s.answered s.block [0x80, (s.block.status.extractLsb' 0 4).zeroExtend 8])) ∧
    (∀ (i : Instr) (t : State), i ≠ .reset → exec i s = .next t → t.block.faulted = true) ∧
    (s.inbox = [] → ∀ t, step s = .next t → t.block.faulted = true)

/-- R130: the step is total; no step stops the machine. -/
def Obligations.StepAlwaysAnswersNext : Prop :=
  ∀ s : State, ∃ t, step s = .next t

/-- R45, R130, R140: a command gives exactly one response, whose status byte is OK, an error, Refused or Faulted; an error
or a refusal leaves the block as it was and a fault writes STATUS only. -/
def Obligations.OneResponseAndErrorsChangeNothing : Prop :=
  ∀ (i : Instr) (s : State), ∃ (status : Byte) (result : Bytes) (t : State),
    exec i s = .next t ∧ t.inbox = s.inbox ∧ t.outbox = s.outbox ++ [status :: result] ∧
    (status = 0x00 ∨ status = 0x01 ∨ status = 0x02 ∨ status = 0x03 ∨ status = 0x05 ∨ status = 0x06 ∨ status = 0x80) ∧
    (status ≠ 0x00 → t.block.crc = s.block.crc ∧ t.block.rbuf = s.block.rbuf) ∧
    (status ≠ 0x00 → status ≠ 0x80 → t.block = s.block ∧ result = []) ∧
    (status = 0x80 → t.block.faulted = true ∧ result = [(t.block.status.extractLsb' 0 4).zeroExtend 8])

/-- R11, R12, R13: which commands write which piece of state. -/
def Obligations.CommandsWriteOnlyTheirState : Prop :=
  ∀ (i : Instr) (s t : State), exec i s = .next t →
    (writesCrc i = false → t.block.crc = s.block.crc) ∧
    (writesRbuf i = false → t.block.rbuf = s.block.rbuf) ∧
    (writesStatus i = false → t.block.status = s.block.status)

/-- R39: a command that does not read CRC behaves the same whatever CRC holds. -/
def Obligations.CrcReachesOnlyItsReaders : Prop :=
  ∀ (i : Instr) (s t : State) (c : BitVec 16), readsCrc i = false → exec i s = .next t →
    ∃ u, exec i { s with block := { s.block with crc := c } } = .next u ∧
      u.outbox = t.outbox ∧ u.block.rbuf = t.block.rbuf ∧ u.block.status = t.block.status ∧
      (s.running → writesCrc i = true → u.block.crc = t.block.crc)

/-- R39: a command that does not read RBUF behaves the same whatever RBUF holds. -/
def Obligations.RbufReachesOnlyItsReaders : Prop :=
  ∀ (i : Instr) (s t : State) (r : Bytes), readsRbuf i = false → exec i s = .next t →
    ∃ u, exec i { s with block := { s.block with rbuf := r } } = .next u ∧
      u.outbox = t.outbox ∧ u.block.crc = t.block.crc ∧ u.block.status = t.block.status ∧
      (s.running → writesRbuf i = true → u.block.rbuf = t.block.rbuf)

/-- A presented packet that decodes is executed, and has left the port when it is. -/
def Obligations.StepRunsTheDecodedCommand : Prop :=
  ∀ (s : State) (p : Bytes) (rest : List HostEvent) (i : Instr),
    s.inbox = .command p :: rest → decode p = .ok i → step s = exec i { s with inbox := rest }

/-- R60: a packet that is empty, has an opcode outside R46 or is not well-formed is answered 04 and changes no state,
faulted or not. -/
def Obligations.IllegalPacketAnsweredIllegalCommand : Prop :=
  ∀ (s : State) (p : Bytes) (rest : List HostEvent),
    s.inbox = .command p :: rest → packetWellFormed p = false →
    step s = .next (({ s with inbox := rest } : State).answered s.block [0x04])

/-- R36: the steps over the packets of a command sequence are the fold of the meanings, in issue order. -/
def Obligations.StepsFoldTheCommands : Prop :=
  ∀ (is : List Instr) (s : State), (∀ i ∈ is, i.wellFormed = true) → s.inbox = [] →
    stepTimes is.length { s with inbox := is.map fun i => .command (encode i) } = execAll is s

/-! ### Encoding (30_encoding.md) -/

/-- Words of each family, written out from R46, R47, R57 and R58. -/
def Obligations.WrittenWordsDecode : Prop :=
  decode [0x02, 0x31] = .ok (.crcUpd 0x31) ∧
  decode [0x10, 0x01, 0x00, 0x02, 0x00, 0x43, 0x02, 0x00, 0x00, 0x00, 0xAA, 0xBB] = .ok (.fenc 1 2 0x43 [0xAA, 0xBB]) ∧
  decode [0x20, 0x02, 0xFE, 0x00, 0x6A, 0xFF, 0xFF, 0xFF, 0xFF, 0xFF, 0xFF, 0xFF] =
    .ok (.vencI16 0xFE (.num (BitVec.ofInt 64 (-150)))) ∧
  decode [0x21, 0x06, 0x00, 0x01, 0x00, 0x00, 0x00, 0x01] = .ok (.vdecBool 0 [0x01]) ∧
  decode [0x30, 0x03, 0x00, 0x00, 0x00, 0x68, 0x05, 0x00] = .ok (.rsmFeed [0x68, 0x05, 0x00]) ∧
  decode [0xFF] = .ok .reset

/-- Decoding the packet of any command gives the command back. -/
def Obligations.DecodeOfEncodeIsTheCommand : Prop :=
  ∀ i : Instr, i.wellFormed = true → decode (encode i) = .ok i

/-- A packet that decodes is the packet of what it decodes to, and that is well-formed: no bit of a packet is dropped. -/
def Obligations.EncodeOfDecodeIsThePacket : Prop :=
  ∀ (p : Bytes) (i : Instr), decode p = .ok i → encode i = p ∧ i.wellFormed = true

/-- R47: a packet decodes exactly when its lengths, its tag and its BOOL byte are as the formats say. -/
def Obligations.DecodesExactlyWellFormedPackets : Prop :=
  ∀ p : Bytes, packetWellFormed p = true ↔ ∃ i, decode p = .ok i

/-! ### The CRC engine (40_crc.md) -/

/-- R34, R70: one step consumes the byte's bits most significant first. -/
def Obligations.CrcStepIsMsbFirst : Prop :=
  ∀ (c : BitVec 16) (b : Byte),
    crcStep c b = ([7, 6, 5, 4, 3, 2, 1, 0] : List Nat).foldl
      (fun (r : BitVec 16) (j : Nat) => if (r.getLsbD 15 ^^ b.getLsbD j) then (r <<< 1) ^^^ 0x1021#16 else r <<< 1) c

/-- R72: the empty sequence, zero bytes, leading zero bytes, and the residue. -/
def Obligations.CrcResidueAndZeroLaws : Prop :=
  crc16 [] = 0x0000 ∧ (∀ n, crc16 (List.replicate n 0x00) = 0x0000) ∧
  (∀ s, crc16 (0x00 :: s) = crc16 s) ∧
  ∀ s, crc16 (s ++ [(crc16 s).extractLsb' 8 8, (crc16 s).extractLsb' 0 8]) = 0x0000

/-- R72 (c): a nonzero change confined to 16 consecutive bit positions, at any bit offset, changes the checksum. -/
def Obligations.BurstOfSixteenBitsChangesCrc : Prop :=
  ∀ (pre suf : Bytes) (e : BitVec 16), e ≠ 0 →
    (∀ (x0 x1 x2 : Byte) (k : Nat), k ≤ 8 →
      crc16 (pre ++ [x0 ^^^ (e.zeroExtend 24 <<< k).extractLsb' 16 8, x1 ^^^ (e.zeroExtend 24 <<< k).extractLsb' 8 8,
        x2 ^^^ (e.zeroExtend 24 <<< k).extractLsb' 0 8] ++ suf) ≠ crc16 (pre ++ [x0, x1, x2] ++ suf)) ∧
    (∀ x0 x1 : Byte, crc16 (pre ++ [x0 ^^^ e.extractLsb' 8 8, x1 ^^^ e.extractLsb' 0 8] ++ suf) ≠
      crc16 (pre ++ [x0, x1] ++ suf)) ∧
    (∀ x y : Byte, x ≠ y → crc16 (pre ++ [x] ++ suf) ≠ crc16 (pre ++ [y] ++ suf))

/-- R73: CRC.CLR. -/
def Obligations.CrcClrResult : Prop :=
  encode .crcClr = [0x01] ∧ ∀ s : State, s.running →
    exec .crcClr s = .next (s.answered { s.block with crc := 0x0000 } [0x00])

/-- R74: CRC.UPD. -/
def Obligations.CrcUpdResult : Prop :=
  ∀ b : Byte, encode (.crcUpd b) = [0x02, b] ∧ ∀ s : State, s.running →
    exec (.crcUpd b) s = .next (s.answered { s.block with crc := crcStep s.block.crc b } [0x00])

/-- R75: CRC.RD answers the register low byte first and does not clear it. -/
def Obligations.CrcRdResult : Prop :=
  encode .crcRd = [0x03] ∧ ∀ s : State, s.running →
    exec .crcRd s =
      .next (s.answered s.block [0x00, s.block.crc.extractLsb' 0 8, s.block.crc.extractLsb' 8 8])

/-- R76: CRC16. -/
def Obligations.Crc16Result : Prop :=
  ∀ buf : Bytes, (buf.length < 2 ^ 32 → encode (.crc16 buf) = 0x04 :: (leBytes 4 buf.length ++ buf)) ∧
    ∀ s : State, s.running →
      exec (.crc16 buf) s = .next (s.answered { s.block with crc := crc16 buf }
        [0x00, (crc16 buf).extractLsb' 0 8, (crc16 buf).extractLsb' 8 8])

/-- R77: the streaming and the one-shot path agree, CRC.UPD goes on from CRC16, and FENC and RSM.FEED neither read nor
disturb CRC. -/
def Obligations.CrcStreamingEqualsOneShot : Prop :=
  (∀ (bs : Bytes) (s : State), s.running → ∃ t u,
    execAll (Pseudo.expand (.crcStream bs)) s = .next t ∧ execAll [.crc16 bs] s = .next u ∧
    t.block = { s.block with crc := crc16 bs } ∧ u.block = { s.block with crc := crc16 bs } ∧
    t.outbox = s.outbox ++ List.replicate (bs.length + 1) [0x00] ++
      [[0x00, (crc16 bs).extractLsb' 0 8, (crc16 bs).extractLsb' 8 8]] ∧
    u.outbox = s.outbox ++ [[0x00, (crc16 bs).extractLsb' 0 8, (crc16 bs).extractLsb' 8 8]]) ∧
  (∀ (bs ds : Bytes) (s : State), s.running → ∃ t,
    execAll (.crc16 bs :: ds.map Instr.crcUpd) s = .next t ∧ t.block = { s.block with crc := crc16 (bs ++ ds) }) ∧
  (∀ (i : Instr) (s : State) (c : BitVec 16),
    ((∃ dest src func payload, i = .fenc dest src func payload) ∨ ∃ chunk, i = .rsmFeed chunk) →
    ∃ t, exec i s = .next t ∧ t.block.crc = s.block.crc ∧
      exec i { s with block := { s.block with crc := c } } = .next { t with block := { t.block with crc := c } })

/-! ### The frame codec (41_frame.md) -/

/-- R82: FENC. -/
def Obligations.FencResult : Prop :=
  ∀ (dest src : BitVec 16) (func : Byte) (payload : Bytes),
    (payload.length < 2 ^ 32 → encode (.fenc dest src func payload) =
      [0x10, dest.extractLsb' 0 8, dest.extractLsb' 8 8, src.extractLsb' 0 8, src.extractLsb' 8 8, func] ++
        leBytes 4 payload.length ++ payload) ∧
    ∀ s : State, s.running →
      exec (.fenc dest src func payload) s = .next (s.answered s.block
        (if 65530 < payload.length then [0x03]
         else [0x00] ++ leBytes 4 (payload.length + 11) ++ fenc dest src func payload))

/-- R50 to R53, R81: the frame byte by byte. -/
def Obligations.FencLayout : Prop :=
  ∀ (dest src : BitVec 16) (func : Byte) (payload : Bytes), payload.length ≤ 65530 →
    let L : BitVec 16 := BitVec.ofNat 16 (payload.length + 5)
    let covered : Bytes := [L.extractLsb' 0 8, L.extractLsb' 8 8, dest.extractLsb' 0 8, dest.extractLsb' 8 8,
      src.extractLsb' 0 8, src.extractLsb' 8 8, func] ++ payload
    fenc dest src func payload =
      0x68 :: covered ++ [(crc16 covered).extractLsb' 8 8, (crc16 covered).extractLsb' 0 8, 0x16]

/-- R87: delimiters, length field, checksum and residue of an encoded frame; two different operand tuples give different
frames. -/
def Obligations.FencStructureAndInjectivity : Prop :=
  (∀ (dest src : BitVec 16) (func : Byte) (payload : Bytes), payload.length ≤ 65530 →
    let w := fenc dest src func payload
    w.getD 0 0 = 0x68 ∧ w.getD (w.length - 1) 0 = 0x16 ∧ w.length = payload.length + 11 ∧
    unLE (slice w 1 3) = w.length - 6 ∧
    unBE16 (slice w (w.length - 3) (w.length - 1)) = (crc16 (slice w 1 (w.length - 3))).toNat ∧
    crc16 (slice w 1 (w.length - 1)) = 0x0000) ∧
  ∀ (d d' r r' : BitVec 16) (f f' : Byte) (p p' : Bytes), p.length ≤ 65530 → p'.length ≤ 65530 →
    fenc d r f p = fenc d' r' f' p' → d = d' ∧ r = r' ∧ f = f' ∧ p = p'

/-- R84: FDEC. -/
def Obligations.FdecResult : Prop :=
  ∀ body : Bytes, body.length < 2 ^ 32 → encode (.fdec body) = 0x11 :: (leBytes 4 body.length ++ body) ∧
    ∀ s : State, s.running →
      exec (.fdec body) s = .next (s.answered s.block
        (if body.length < 7 then [0x02]
         else [0x00, body.getD 2 0, body.getD 3 0, body.getD 4 0, body.getD 5 0, body.getD 6 0] ++
           leBytes 4 (body.length - 7) ++ body.drop 7))

/-- R85: the round trip through fdec, and through the reassembler from an empty RBUF. -/
def Obligations.FrameRoundTrip : Prop :=
  ∀ (dest src : BitVec 16) (func : Byte) (payload : Bytes), payload.length ≤ 65530 →
    let w := fenc dest src func payload
    fdec (slice w 1 (w.length - 3)) = { dest := dest, src := src, func := func, payload := payload } ∧
    ∀ s : State, s.running → s.block.rbuf = [] →
      exec (.rsmFeed w) s = .next (s.answered s.block
        ([0x00, 0x01, 0x00, 0x00, 0x00, dest.extractLsb' 0 8, dest.extractLsb' 8 8, src.extractLsb' 0 8,
          src.extractLsb' 8 8, func] ++ leBytes 4 payload.length ++ payload))

/-! ### The value codec (42_value.md) -/

/-- R101: rnd gives a nearest integer, and on a tie the even one or the one farther from zero. -/
def Obligations.RndIsNearestWithTieRule : Prop :=
  ∀ (p q : Int) (tie : RoundTie), 0 < q →
    2 * (p - q * rnd p q tie) ≤ q ∧ -q ≤ 2 * (p - q * rnd p q tie) ∧
    (2 * (p - q * rnd p q tie) = q ∨ 2 * (p - q * rnd p q tie) = -q →
      (tie = .halfEven → rnd p q tie % 2 = 0) ∧
      (tie = .halfAway → (0 < p → p < q * rnd p q tie) ∧ (p < 0 → q * rnd p q tie < p)))

/-- R129: both tie rules round a negative dividend symmetrically. -/
def Obligations.RndIsSymmetric : Prop :=
  ∀ (p q : Int) (tie : RoundTie), 0 < q → rnd (-p) q tie = -rnd p q tie

/-- R102: scaling divides by 10^k on encode and multiplies by 10^k on decode, on hundredths, exactly where it can be exact
and to the nearest integer otherwise, with one sign for both directions. -/
def Obligations.ScalingIsExactOrNearest : Prop :=
  ∀ (P : Params) (x exp : Int), exp ≠ 0 →
    let k : Int := (if P.scaleSign = .plus then exp else -exp)
    (k ≤ -2 → scaleEnc P x exp = x * 10 ^ (-k - 2).toNat) ∧
    (-1 ≤ k → scaleEnc P x exp = rnd x (10 ^ (k + 2).toNat) P.roundTie) ∧
    (-2 ≤ k → scaleDec P x exp = x * 10 ^ (k + 2).toNat) ∧
    (k ≤ -3 → scaleDec P x exp = rnd x (10 ^ (-k - 2).toNat) P.roundTie)

/-- R103, R129: every decoded number fits the 64-bit carrier, under every parameter setting. -/
def Obligations.DecodedNumbersFitSixtyFourBits : Prop :=
  ∀ (P : Params) (T : IntType) (exp : Int) (data : Bytes), -7 ≤ exp → exp ≤ 7 → T.width ≤ data.length →
    -(2 ^ 63) < vdecInt P T exp data ∧ vdecInt P T exp data < 2 ^ 63

/-- R105, R106 to R112: VENC of the six integer types: mismatched kind, exponent outside -7 to 7, fraction at exp = 0, out
of range after scaling and rounding, and the packed two's complement bytes. -/
def Obligations.VencIntegerResult : Prop :=
  ([.i8, .u8, .i16, .u16, .i32, .u32] : List IntType).map (fun T => (T.width, T.lo, T.hi)) =
    [(1, -128, 127), (1, 0, 255), (2, -32768, 32767), (2, 0, 65535), (4, -2147483648, 2147483647), (4, 0, 4294967295)] ∧
  ∀ (T : IntType) (exp : Byte) (s : State), s.running →
    (∀ v : Value, (∀ c, v ≠ .num c) → exec (T.venc exp v) s = .next (s.answered s.block [0x01])) ∧
    ∀ c : BitVec 64, exec (T.venc exp (.num c)) s = .next (s.answered s.block
      (if exp.toInt < -7 ∨ 7 < exp.toInt then [0x06]
       else if exp.toInt = 0 ∧ c.toInt % 100 ≠ 0 then [0x01]
       else
         let r := if exp.toInt = 0 then c.toInt / 100 else scaleEnc Config.params c.toInt exp.toInt
         if r < T.lo ∨ T.hi < r then [0x01]
         else [0x00] ++ leBytes 4 T.width ++
           leBytes T.width (if r < 0 then r + 2 ^ (8 * T.width) else r).toNat))

/-- R113: VENC BOOL. -/
def Obligations.VencBoolResult : Prop :=
  ∀ (exp : Byte) (s : State), s.running →
    (∀ t : Bool, encode (.vencBool exp (.bool t)) = [0x20, 0x06, exp, 0x01, if t then 0x01 else 0x00] ∧
      exec (.vencBool exp (.bool t)) s = .next (s.answered s.block
        (if exp.toInt ≠ 0 then [0x06] else [0x00, 0x01, 0x00, 0x00, 0x00, if t then 0x01 else 0x00]))) ∧
    ∀ v : Value, (∀ t, v ≠ .bool t) → exec (.vencBool exp v) s = .next (s.answered s.block [0x01])

/-- R114: VENC FLOAT passes the pattern through, least significant byte first, whatever the exponent. -/
def Obligations.VencFloatResult : Prop :=
  ∀ (exp : Byte) (s : State), s.running →
    (∀ p : BitVec 32, exec (.vencFloat exp (.f32 p)) s = .next (s.answered s.block
      [0x00, 0x04, 0x00, 0x00, 0x00, p.extractLsb' 0 8, p.extractLsb' 8 8, p.extractLsb' 16 8, p.extractLsb' 24 8])) ∧
    ∀ v : Value, (∀ p, v ≠ .f32 p) → exec (.vencFloat exp v) s = .next (s.answered s.block [0x01])

/-- R115: VENC STRING appends one 0x00, whatever the exponent. A text of 2^32 - 1 bytes has a result whose count field the
spec does not state (log entry 6): there the four bytes of the count are not said. -/
def Obligations.VencStringResult : Prop :=
  ∀ (exp : Byte) (s : State), s.running →
    (∀ text : Bytes, ∃ count : Bytes, exec (.vencString exp (.str text)) s = .next (s.answered s.block
      ([0x00] ++ count ++ text ++ [0x00])) ∧ count.length = 4 ∧
      (text.length + 1 < 2 ^ 32 → count = leBytes 4 (text.length + 1))) ∧
    ∀ v : Value, (∀ text, v ≠ .str text) → exec (.vencString exp v) s = .next (s.answered s.block [0x01])

/-- R128: a type code of 9 to 255 is EncodeError on encode and DecodeError on decode, before every other check of the
command. -/
def Obligations.UnknownTypeIsAnError : Prop :=
  ∀ (type exp : Byte) (s : State), 9 ≤ type.toNat → s.running →
    (∀ value : Value, exec (.venc type exp value) s = .next (s.answered s.block [0x01])) ∧
    ∀ data : Bytes, exec (.vdec type exp data) s = .next (s.answered s.block [0x02])

/-- R67: the k = 1 rows have, for a known type code, the next state of the k = 2 row of that code; written out for FLOAT on
encode and STRING on decode. No packet spells such a term: that it has this meaning is the model's choice (log entry 10). -/
def Obligations.GeneralRowAgreesWithTypedRow : Prop :=
  (∀ (type exp : Byte) (s : State),
    (∀ value : Value, ∃ t, exec (.venc type exp value) s = .next t ∧ exec (vencRow type exp value) s = .next t) ∧
    ∀ data : Bytes, ∃ t, exec (.vdec type exp data) s = .next t ∧ exec (vdecRow type exp data) s = .next t) ∧
  ∀ (exp : Byte) (s : State), s.running →
    (∀ p : BitVec 32, exec (.venc 7 exp (.f32 p)) s = .next (s.answered s.block
      [0x00, 0x04, 0x00, 0x00, 0x00, p.extractLsb' 0 8, p.extractLsb' 8 8, p.extractLsb' 16 8, p.extractLsb' 24 8])) ∧
    ∀ text rest : Bytes, (0x00 : Byte) ∉ text → text.length < 2 ^ 32 →
      exec (.vdec 8 exp (text ++ 0x00 :: rest)) s =
        .next (s.answered s.block ([0x00, 0x03] ++ leBytes 4 text.length ++ text))

/-- R116, R117, R121 to R126: VDEC of the six integer types: short data, exponent outside -7 to 7, and the 64-bit
hundredths of the leading bytes read two's complement when signed. -/
def Obligations.VdecIntegerResult : Prop :=
  ([.i8, .u8, .i16, .u16, .i32, .u32] : List IntType).map (fun T => (T.width, T.signed)) =
    [(1, true), (1, false), (2, true), (2, false), (4, true), (4, false)] ∧
  ∀ (T : IntType) (exp : Byte) (data : Bytes) (s : State), s.running →
    exec (T.vdec exp data) s = .next (s.answered s.block
      (if data.length < T.width then [0x02]
       else if exp.toInt < -7 ∨ 7 < exp.toInt then [0x06]
       else
         let u : Int := unLE (data.take T.width)
         let raw : Int := if T.signed = true ∧ 2 ^ (8 * T.width - 1) ≤ u then u - 2 ^ (8 * T.width) else u
         let c : Int := if exp.toInt = 0 then 100 * raw else scaleDec Config.params raw exp.toInt
         [0x00, 0x00] ++ leBytes 8 (BitVec.ofInt 64 c).toNat))

/-- R119: VDEC BOOL. -/
def Obligations.VdecBoolResult : Prop :=
  ∀ (exp : Byte) (s : State), s.running →
    exec (.vdecBool exp []) s = .next (s.answered s.block [0x02]) ∧
    ∀ (b : Byte) (rest : Bytes), exec (.vdecBool exp (b :: rest)) s = .next (s.answered s.block
      (if exp.toInt ≠ 0 then [0x06] else [0x00, 0x01, if b = 0x00 then 0x00 else 0x01]))

/-- R118: VDEC FLOAT: the pattern as it stands at exp = 0; otherwise FLOAT_SCALE of the pattern and k, Refused where it is
absent or the exponent is outside -7 to 7. -/
def Obligations.VdecFloatResult : Prop :=
  ∀ (exp : Byte) (data : Bytes) (s : State), s.running →
    exec (.vdecFloat exp data) s = .next (s.answered s.block
      (if data.length < 4 then [0x02]
       else if exp.toInt = 0 then [0x00, 0x02, data.getD 0 0, data.getD 1 0, data.getD 2 0, data.getD 3 0]
       else if exp.toInt < -7 ∨ 7 < exp.toInt then [0x06]
       else match Config.params.floatScale with
         | none => [0x06]
         | some scale => 0x00 :: encodeValue (scale (BitVec.ofNat 32 (unLE (data.take 4)))
             (if Config.params.scaleSign = .plus then exp.toInt else -exp.toInt))))

/-- R120: VDEC STRING: the bytes before the first 0x00, or all of them, whatever the exponent. -/
def Obligations.VdecStringResult : Prop :=
  ∀ (exp : Byte) (text rest : Bytes) (s : State), s.running → (0x00 : Byte) ∉ text → text.length < 2 ^ 32 →
    exec (.vdecString exp (text ++ 0x00 :: rest)) s =
      .next (s.answered s.block ([0x00, 0x03] ++ leBytes 4 text.length ++ text)) ∧
    exec (.vdecString exp text) s = .next (s.answered s.block ([0x00, 0x03] ++ leBytes 4 text.length ++ text))

/-- R127: the round trips of the value codec, under every parameter setting. -/
def Obligations.ValueRoundTrips : Prop :=
  (∀ (P : Params) (T : IntType) (exp : Byte) (c : BitVec 64) (d : Bytes),
    vencIntType P T exp (.num c) = .ok d →
    let k : Int := (if P.scaleSign = .plus then exp.toInt else -exp.toInt)
    ∃ c' : BitVec 64, vdecIntType P T exp d = .ok (.num c') ∧
      (exp.toInt = 0 → c' = c) ∧ (exp.toInt ≠ 0 → k ≤ -2 → c' = c) ∧
      (exp.toInt ≠ 0 → -1 ≤ k →
        c'.toInt = 10 ^ (k + 2).toNat * rnd c.toInt (10 ^ (k + 2).toNat) P.roundTie ∧
        2 * (c'.toInt - c.toInt) ≤ 10 ^ (k + 2).toNat ∧ -(10 ^ (k + 2).toNat) ≤ 2 * (c'.toInt - c.toInt))) ∧
  (∀ (P : Params) (T : IntType) (exp : Byte) (d : Bytes), d.length = T.width → -7 ≤ exp.toInt → exp.toInt ≤ 7 →
    -2 ≤ (if P.scaleSign = .plus then exp.toInt else -exp.toInt) →
    ∃ v, vdecIntType P T exp d = .ok v ∧ vencIntType P T exp v = .ok d) ∧
  (∀ (P : Params) (p : BitVec 32), ∃ d, vencFloat 0 (.f32 p) = .ok d ∧ vdecFloat P 0 d = .ok (.f32 p)) ∧
  (∀ (exp : Byte) (text : Bytes), (0x00 : Byte) ∉ text →
    ∃ d, vencString exp (.str text) = .ok d ∧ vdecString exp d = .ok (.str text)) ∧
  ∀ t : Bool, ∃ d, vencBool 0 (.bool t) = .ok d ∧ vdecBool 0 d = .ok (.bool t)

/-! ### The reassembler (43_reassembler.md) -/

/-- R90, R91, R95, R148: what RSM.FEED answers and writes: refused whole when RBUF_CAP is exceeded, the frames of the parse
in stream order with RBUF left by it, or the fault with CRC and RBUF as they were and no frame returned. A total of at most
65541 bytes fits every capacity. -/
def Obligations.RsmFeedResult : Prop :=
  (∀ n, overflows Config.params n = true ↔ ∃ cap, Config.params.rbufCap = some cap ∧ cap.bytes < n) ∧
  (∀ n, n ≤ 65541 → overflows Config.params n = false) ∧
  ∀ (chunk : Bytes) (s : State), s.running →
    exec (.rsmFeed chunk) s = .next
      (if overflows Config.params (s.block.rbuf.length + chunk.length) then s.answered s.block [0x05]
       else match parseStream (s.block.rbuf ++ chunk) with
         | .done rest frames => s.answered { s.block with rbuf := rest }
             ([0x00] ++ countBytes frames.length ++ frames.flatMap fun f =>
               [f.dest.extractLsb' 0 8, f.dest.extractLsb' 8 8, f.src.extractLsb' 0 8, f.src.extractLsb' 8 8, f.func] ++
                 countBytes f.payload.length ++ f.payload)
         | .shortLength => s.answered
             { s.block with status := 0x80 ||| (s.block.status &&& 0x70) ||| 0x01 } [0x80, 0x01])

/-- R47, R48: a count below 2^32 is its four bytes, least significant first; every count field has four bytes. -/
def Obligations.CountFieldIsLittleEndian : Prop :=
  ∀ n, (countBytes n).length = 4 ∧ (n < 2 ^ 32 → countBytes n = leBytes 4 n ∧ unLE (countBytes n) = n)

/-- R90, R92 to R96: the loop, written out on the buffer's first start byte. -/
def Obligations.ParseFollowsTheSevenSteps : Prop :=
  (∀ noise : Bytes, (0x68 : Byte) ∉ noise → parseStream noise = .done [] []) ∧
  ∀ noise t : Bytes, (0x68 : Byte) ∉ noise →
    let b : Bytes := 0x68 :: t
    let L : Nat := (b.getD 1 0).toNat + 256 * (b.getD 2 0).toNat
    parseStream (noise ++ b) =
      if b.length < 3 ∨ b.length < L + 6 then .done b []
      else if (crc16 (slice b 1 (3 + L))).toNat = 256 * (b.getD (3 + L) 0).toNat + (b.getD (4 + L) 0).toNat ∧
          b.getD (5 + L) 0 = 0x16 then
        if L < 5 then .shortLength
        else match parseStream (b.drop (L + 6)) with
          | .done rest frames => .done rest
              ({ dest := BitVec.ofNat 16 ((b.getD 3 0).toNat + 256 * (b.getD 4 0).toNat)
                 src := BitVec.ofNat 16 ((b.getD 5 0).toNat + 256 * (b.getD 6 0).toNat)
                 func := b.getD 7 0
                 payload := slice b 8 (3 + L) } :: frames)
          | .shortLength => .shortLength
      else parseStream t

/-- R99 (b): chunking does not matter. -/
def Obligations.ChunkingDoesNotMatter : Prop :=
  ∀ (P : Params) (b : Block) (x y : Bytes), P.rbufCap = none →
    match feedEnding P b x with
    | .ok b1 (.frames f1) =>
      (match feedEnding P b1 y with
       | .ok b2 (.frames f2) => feedEnding P b (x ++ y) = .ok b2 (.frames (f1 ++ f2))
       | .raise c => feedEnding P b (x ++ y) = .raise c
       | _ => False)
    | .raise c => feedEnding P b (x ++ y) = .raise c
    | _ => False

/-- R99 (c), (d), R95: a frame behind noise without a start byte is extracted whole, whatever follows it. -/
def Obligations.FrameBehindNoiseIsExtracted : Prop :=
  ∀ (noise rest : Bytes) (dest src : BitVec 16) (func : Byte) (payload : Bytes),
    (0x68 : Byte) ∉ noise → payload.length ≤ 65530 →
    parseStream (noise ++ fenc dest src func payload ++ rest) =
      (match parseStream rest with
       | .done buf frames => .done buf ({ dest := dest, src := src, func := func, payload := payload } :: frames)
       | .shortLength => .shortLength)

/-- R99 (e), R72, R96: a frame with one changed byte outside its start byte and length field is rejected: only its start
byte is dropped. -/
def Obligations.CorruptedFrameIsRejected : Prop :=
  ∀ (dest src : BitVec 16) (func : Byte) (payload rest : Bytes) (i : Nat) (b : Byte),
    payload.length ≤ 65530 → 3 ≤ i → i < payload.length + 11 → b ≠ (fenc dest src func payload).getD i 0 →
    parseStream ((fenc dest src func payload).set i b ++ rest) =
      parseStream (((fenc dest src func payload).set i b).drop 1 ++ rest)

/-- R97: RSM.RST. -/
def Obligations.RsmRstResult : Prop :=
  encode .rsmRst = [0x31] ∧ ∀ s : State, s.running →
    exec .rsmRst s = .next (s.answered { s.block with rbuf := [] } [0x00])

/-- R98: RSM.LVL. -/
def Obligations.RsmLvlResult : Prop :=
  encode .rsmLvl = [0x32] ∧ ∀ s : State, s.running →
    ∃ level : Bytes, exec .rsmLvl s = .next (s.answered s.block ([0x00] ++ level)) ∧ level.length = 4 ∧
      (s.block.rbuf.length < 2 ^ 32 → level = leBytes 4 s.block.rbuf.length)

/-- R20, R62: a settled RBUF is shorter than the longest frame and its phase is never HAVE_FRAME; every parse leaves a
settled buffer. -/
def Obligations.SettledBufferHoldsNoWholeFrame : Prop :=
  (∀ buf : Bytes, rbufSettled buf = true → buf.length < 65541 ∧ phase buf ≠ .haveFrame) ∧
  ∀ buf rest frames, parseStream buf = .done rest frames → rbufSettled rest = true ∧ ∃ gone, buf = gone ++ rest

/-- The smallest instance of the fault (R95): `68 00 00 00 00 16` from an empty RBUF. -/
def Obligations.SmallestShortFrameFaults : Prop :=
  ∀ s : State, s.running → statusLegal s.block.status = true → s.block.rbuf = [] →
    exec (.rsmFeed [0x68, 0x00, 0x00, 0x00, 0x00, 0x16]) s =
      .next (s.answered { s.block with status := 0x81 } [0x80, 0x01])

/-! ### The invariant -/

/-- R99 (a), R12, R13: the invariant holds after reset. -/
def Obligations.ResetMeetsTheBlockInvariant : Prop := State.reset.block.Inv

/-- R99 (a), R12, R13: every step keeps the invariant, from every state that meets it. -/
def Obligations.EveryStepKeepsTheBlockInvariant : Prop :=
  ∀ s t : State, s.block.Inv → step s = .next t → t.block.Inv
end

