-- ==== Sys2Proof/Laws/Bytes.lean ====
section
/-! SUPPORT. Laws of the byte-order helpers and of the count field. -/

namespace Sys2Proof.Machine

@[simp] theorem leBytes_length (n v : Nat) : (leBytes n v).length = n := by
  induction n generalizing v with
  | zero => rfl
  | succ n ih => simp [leBytes, ih]

/-- `unLE` inverts `LE_n` up to the width. -/
theorem unLE_leBytes (n v : Nat) : unLE (leBytes n v) = v % 256 ^ n := by
  induction n generalizing v with
  | zero => simp [leBytes, unLE, Nat.mod_one]
  | succ n ih =>
    have h : (BitVec.ofNat 8 v).toNat = v % 256 := rfl
    rw [leBytes, unLE, ih, h, pow_succ', Nat.mod_mul]

/-- n bytes hold less than 256^n. -/
theorem unLE_lt (s : Bytes) : unLE s < 256 ^ s.length := by
  induction s with
  | nil => simp [unLE]
  | cons b s ih =>
    have := b.isLt
    simp only [unLE, List.length_cons, pow_succ']
    omega

/-- `LE_n` inverts `unLE` on n bytes. -/
theorem leBytes_unLE (s : Bytes) : leBytes s.length (unLE s) = s := by
  induction s with
  | nil => rfl
  | cons b s ih =>
    have hb := b.isLt
    have h : (b.toNat + 256 * unLE s) / 256 = unLE s := by omega
    have h2 : BitVec.ofNat 8 (b.toNat + 256 * unLE s) = b := by
      apply BitVec.eq_of_toNat_eq
      simp only [BitVec.toNat_ofNat]
      omega
    simp only [List.length_cons, unLE, leBytes, h, h2, ih]

@[simp] theorem countBytes_length (n : Nat) : (countBytes n).length = 4 := leBytes_length ..

/-- Below 2^32 the count field is LE32 of the count. -/
theorem countBytes_eq {n : Nat} (h : n < 2 ^ 32) : countBytes n = leBytes 4 n := by
  simp only [countBytes, h, if_true]

/-- Below 2^32 the count field reads back as the count. -/
theorem unLE_countBytes {n : Nat} (h : n < 2 ^ 32) : unLE (countBytes n) = n := by
  rw [countBytes_eq h, unLE_leBytes, Nat.mod_eq_of_lt (by simpa using h)]

/-- `LE16` is `LE_2`. -/
theorem le16_eq (v : BitVec 16) : le16 v = leBytes 2 v.toNat := by
  have h := v.isLt
  simp only [le16, leBytes, List.cons.injEq, and_true]
  constructor <;> apply BitVec.eq_of_toNat_eq <;> simp [BitVec.extractLsb'_toNat, Nat.shiftRight_eq_div_pow]

/-- The two bytes of `LE16` give the value back. -/
theorem unLE_le16 (v : BitVec 16) : unLE (le16 v) = v.toNat := by
  rw [le16_eq, unLE_leBytes, Nat.mod_eq_of_lt (by simpa using v.isLt)]

/-- The two bytes of `BE16` give the value back. -/
theorem unBE16_be16 (v : BitVec 16) : unBE16 (be16 v) = v.toNat := by
  have h := v.isLt
  simp [unBE16, be16, BitVec.extractLsb'_toNat, Nat.shiftRight_eq_div_pow]
  omega

@[simp] theorem le16_length (v : BitVec 16) : (le16 v).length = 2 := rfl
@[simp] theorem be16_length (v : BitVec 16) : (be16 v).length = 2 := rfl

/-- The length of a slice that ends inside the sequence. -/
theorem slice_length (s : Bytes) (a b : Nat) (h : b ≤ s.length) : (slice s a b).length = b - a := by
  simp [slice]; omega

/-- A slice of a prefix is a slice of the whole. -/
theorem slice_take (s : Bytes) (a b n : Nat) (h : b ≤ n) : slice (s.take n) a b = slice s a b := by
  simp only [slice, List.drop_take, List.take_take]
  congr 1; omega

/-- A slice that ends inside the first part is a slice of it. -/
theorem slice_append (s t : Bytes) (a b : Nat) (h : b ≤ s.length) : slice (s ++ t) a b = slice s a b := by
  simp only [slice]
  by_cases hab : a ≤ b
  · rw [List.drop_append_of_le_length (by omega), List.take_append_of_le_length (by simp; omega)]
  · have : b - a = 0 := by omega
    simp [this]

/-- The signed reading of an 8-bit pattern is `BitVec.toInt`. -/
theorem expOf_eq_toInt (e : Byte) : expOf e = e.toInt := by
  simp only [expOf, sext, BitVec.toInt]
  have := e.isLt
  split <;> split <;> first | rfl | omega

end Sys2Proof.Machine
end

