-- ==== Sys2Proof/Laws/Crc.lean ====
section
/-! SUPPORT. Laws of the CRC engine: one shift is linear over exclusive or and injective, hence so are a step and a fold. -/

namespace Sys2Proof.Machine

/-- One shift is linear over exclusive or. -/
theorem crcShift_xor (a b : BitVec 16) : crcShift (a ^^^ b) = crcShift a ^^^ crcShift b := by
  have h : (a ^^^ b) <<< 1 = a <<< 1 ^^^ b <<< 1 := BitVec.shiftLeft_xor_distrib ..
  simp only [crcShift, h, BitVec.getLsbD_xor]
  generalize a <<< 1 = x
  generalize b <<< 1 = y
  have hp : x ^^^ 0x1021#16 ^^^ (y ^^^ 0x1021#16) = x ^^^ y := by
    rw [BitVec.xor_assoc, BitVec.xor_comm 0x1021#16, BitVec.xor_assoc y, BitVec.xor_self, BitVec.xor_zero]
  cases a.getLsbD 15 <;> cases b.getLsbD 15
  · simp
  · simp [BitVec.xor_assoc]
  · simp only [Bool.xor_false, if_true, Bool.false_eq_true, if_false]
    rw [BitVec.xor_assoc, BitVec.xor_comm y, ← BitVec.xor_assoc]
  · simp [hp]

@[simp] theorem crcShift_zero : crcShift 0#16 = 0#16 := by decide

/-- The polynomial has a nonzero constant term: only zero shifts to zero. -/
theorem crcShift_eq_zero {d : BitVec 16} (h : crcShift d = 0) : d = 0 := by
  unfold crcShift at h
  split at h
  · have h0 := congrArg (fun v : BitVec 16 => v.getLsbD 0) h
    simp at h0
  · rename_i hb
    apply BitVec.eq_of_getLsbD_eq
    intro i hi
    by_cases h15 : i = 15
    · subst h15; simpa using hb
    · have := congrArg (fun v : BitVec 16 => v.getLsbD (i + 1)) h
      simp at this
      have := this (by omega)
      simp [this]

/-- One shift is injective. -/
theorem crcShift_inj {a b : BitVec 16} (h : crcShift a = crcShift b) : a = b := by
  have h0 : crcShift (a ^^^ b) = 0 := by rw [crcShift_xor, h, BitVec.xor_self]; rfl
  exact BitVec.xor_eq_zero_iff.mp (crcShift_eq_zero h0)

theorem crcShifts_xor (n : Nat) (a b : BitVec 16) : crcShifts n (a ^^^ b) = crcShifts n a ^^^ crcShifts n b := by
  induction n generalizing a b with
  | zero => rfl
  | succ n ih => simp only [crcShifts, crcShift_xor, ih]

@[simp] theorem crcShifts_zero (n : Nat) : crcShifts n 0#16 = 0#16 := by
  induction n with
  | zero => rfl
  | succ n ih => simp only [crcShifts, crcShift_zero, ih]

theorem crcShifts_add (m n : Nat) (c : BitVec 16) : crcShifts (m + n) c = crcShifts n (crcShifts m c) := by
  induction m generalizing c with
  | zero => simp [crcShifts]
  | succ m ih => rw [Nat.succ_add]; simp only [crcShifts, ih]

theorem crcShifts_inj (n : Nat) {a b : BitVec 16} (h : crcShifts n a = crcShifts n b) : a = b := by
  induction n generalizing a b with
  | zero => exact h
  | succ n ih => exact crcShift_inj (ih h)

/-- Shifts that move no set bit past bit 15 are a plain shift. -/
theorem crcShifts_small (n : Nat) (x : BitVec 16) (h : x.toNat * 2 ^ n < 2 ^ 16) : crcShifts n x = x <<< n := by
  induction n generalizing x with
  | zero => simp [crcShifts]
  | succ n ih =>
    have hx : x.toNat * 2 < 2 ^ 16 := by
      have : 1 ≤ 2 ^ n := Nat.one_le_two_pow
      calc x.toNat * 2 = x.toNat * 2 * 1 := by ring
        _ ≤ x.toNat * 2 * 2 ^ n := Nat.mul_le_mul_left _ this
        _ = x.toNat * 2 ^ (n + 1) := by ring
        _ < _ := h
    have hb : x.getLsbD 15 = false := by
      rw [BitVec.getLsbD, Nat.testBit_lt_two_pow]; omega
    have hs : crcShift x = x <<< 1 := by simp only [crcShift, hb, Bool.false_eq_true, if_false]
    have hn : (x <<< 1).toNat = x.toNat * 2 := by
      rw [BitVec.toNat_shiftLeft, Nat.shiftLeft_eq, Nat.mod_eq_of_lt (by simpa using hx)]
    rw [crcShifts, hs, ih, ← BitVec.shiftLeft_add, Nat.add_comm]
    rw [hn, mul_assoc, ← pow_succ']; exact h

/-- One step is linear over exclusive or, in register and byte together. -/
theorem crcStep_xor (a b : BitVec 16) (x y : Byte) :
    crcStep (a ^^^ b) (x ^^^ y) = crcStep a x ^^^ crcStep b y := by
  have h : a ^^^ b ^^^ ((x ^^^ y).zeroExtend 16 <<< 8) =
      (a ^^^ (x.zeroExtend 16 <<< 8)) ^^^ (b ^^^ (y.zeroExtend 16 <<< 8)) := by
    simp only [BitVec.truncate_eq_setWidth, BitVec.setWidth_xor, BitVec.shiftLeft_xor_distrib]
    ac_rfl
  simp only [crcStep, h, crcShifts_xor]

/-- One step is injective in the register. -/
theorem crcStep_inj {a b : BitVec 16} {x : Byte} (h : crcStep a x = crcStep b x) : a = b := by
  have := crcShifts_inj 8 h
  exact (BitVec.xor_left_inj _).mp this

/-- Eight shifts of a byte in the low half move it to the high half. -/
theorem crcShifts_byte (x : Byte) : crcShifts 8 (x.zeroExtend 16) = x.zeroExtend 16 <<< 8 := by
  apply crcShifts_small
  have := x.isLt
  simp; omega

/-- One step is injective in the byte. -/
theorem crcStep_byte_inj {c : BitVec 16} {x y : Byte} (h : crcStep c x = crcStep c y) : x = y := by
  have h3 := (BitVec.xor_right_inj _).mp (crcShifts_inj 8 h)
  apply BitVec.eq_of_getLsbD_eq
  intro i hi
  have := congrArg (fun v : BitVec 16 => v.getLsbD (i + 8)) h3
  simp at this
  rw [decide_eq_true (show i + 8 < 16 by omega)] at this
  simpa [show i < 16 by omega] using this

/-- The fold over a sequence is injective in the register. -/
theorem crcFold_inj (s : Bytes) {a b : BitVec 16} (h : s.foldl crcStep a = s.foldl crcStep b) : a = b := by
  induction s generalizing a b with
  | nil => exact h
  | cons x s ih => exact crcStep_inj (ih h)

/-- `crc16` of a concatenation goes on from `crc16` of the first part. -/
theorem crc16_append (s t : Bytes) : crc16 (s ++ t) = t.foldl crcStep (crc16 s) := List.foldl_append ..

end Sys2Proof.Machine
end

