-- ==== Sys2Proof/Laws/Decode.lean ====
section
/-! SUPPORT. Laws of the parsers the decoder is made of: each undoes the matching part of the encoder, and what it accepts is
what that part of the encoder writes. -/

namespace Sys2Proof

open Sys2Proof.Machine

/-- The next bytes of a sequence that begins with them. -/
theorem takeBytes_append (a t : Bytes) : takeBytes a.length (a ++ t) = .ok (a, t) := by
  simp [takeBytes]

/-- What `takeBytes` accepts. -/
theorem takeBytes_ok {n : Nat} {p a t : Bytes} (h : takeBytes n p = .ok (a, t)) : p = a ++ t ∧ a.length = n := by
  unfold takeBytes at h
  split at h
  · cases h
  · cases h
    exact ⟨(List.take_append_drop n p).symm, by simp; omega⟩

/-- A counted operand read back. -/
theorem takeCounted_encode (d t : Bytes) (h : d.length < 2 ^ 32) : takeCounted (encodeCounted d ++ t) = .ok (d, t) := by
  have h4 : takeBytes 4 (countBytes d.length ++ (d ++ t)) = .ok (countBytes d.length, d ++ t) := by
    simpa using takeBytes_append (countBytes d.length) (d ++ t)
  rw [encodeCounted, List.append_assoc, takeCounted, h4]
  simp only [unLE_countBytes h, takeBytes_append]

/-- What `takeCounted` accepts. -/
theorem takeCounted_ok {p d t : Bytes} (h : takeCounted p = .ok (d, t)) :
    p = encodeCounted d ++ t ∧ d.length < 2 ^ 32 := by
  unfold takeCounted at h
  split at h
  · cases h
  · rename_i n u hn
    obtain ⟨rfl, h4⟩ := takeBytes_ok hn
    obtain ⟨rfl, hd⟩ := takeBytes_ok h
    have hlt : d.length < 2 ^ 32 := by
      have := unLE_lt n
      rw [h4] at this
      omega
    refine ⟨?_, hlt⟩
    rw [encodeCounted, countBytes_eq hlt, hd, ← h4, leBytes_unLE, List.append_assoc]

/-- A Value read back. -/
theorem takeValue_encode (v : Value) (t : Bytes) (h : v.wellFormed = true) :
    ∃ tag u, encodeValue v ++ t = tag :: u ∧ takeValue tag u = .ok (v, t) := by
  cases v with
  | num c =>
    refine ⟨0, leBytes 8 c.toNat ++ t, rfl, ?_⟩
    have h8 : takeBytes 8 (leBytes 8 c.toNat ++ t) = .ok (leBytes 8 c.toNat, t) := by
      simpa using takeBytes_append (leBytes 8 c.toNat) t
    have hc : unLE (leBytes 8 c.toNat) = c.toNat := by
      rw [unLE_leBytes, Nat.mod_eq_of_lt (by simpa using c.isLt)]
    simp [takeValue, h8, hc]
  | bool b => refine ⟨1, _, rfl, ?_⟩; cases b <;> simp [takeValue]
  | f32 p =>
    refine ⟨2, leBytes 4 p.toNat ++ t, rfl, ?_⟩
    have h4 : takeBytes 4 (leBytes 4 p.toNat ++ t) = .ok (leBytes 4 p.toNat, t) := by
      simpa using takeBytes_append (leBytes 4 p.toNat) t
    have hp : unLE (leBytes 4 p.toNat) = p.toNat := by
      rw [unLE_leBytes, Nat.mod_eq_of_lt (by simpa using p.isLt)]
    simp [takeValue, h4, hp]
  | str s =>
    refine ⟨3, countBytes s.length ++ s ++ t, rfl, ?_⟩
    have := takeCounted_encode s t (by simpa [Value.wellFormed, Bytes.fitsCount] using h)
    rw [encodeCounted] at this
    simp [takeValue, this, -List.append_assoc]

/-- What `takeValue` accepts. -/
theorem takeValue_ok {tag : Byte} {p t : Bytes} {v : Value} (h : takeValue tag p = .ok (v, t)) :
    tag :: p = encodeValue v ++ t ∧ v.wellFormed = true := by
  have back : ∀ n (a : Bytes), a.length = n → leBytes n (unLE a) = a := fun n a ha => ha ▸ leBytes_unLE a
  unfold takeValue at h
  split at h
  · rename_i ht
    have ht : tag = 0 := BitVec.eq_of_toNat_eq ht
    split at h
    · cases h
    · rename_i a u ha
      cases h
      obtain ⟨rfl, hl⟩ := takeBytes_ok ha
      have hlt := unLE_lt a
      rw [hl] at hlt
      have hn : (BitVec.ofNat 64 (unLE a)).toNat = unLE a := Nat.mod_eq_of_lt (by omega)
      exact ⟨by rw [encodeValue, hn, back 8 a hl, ht]; rfl, rfl⟩
  · rename_i ht
    have ht : tag = 1 := BitVec.eq_of_toNat_eq ht
    split at h
    · cases h
    · split at h
      · cases h; simp [encodeValue, Value.wellFormed, *]
      · split at h <;> cases h
        simp [encodeValue, Value.wellFormed, *]
  · rename_i ht
    have ht : tag = 2 := BitVec.eq_of_toNat_eq ht
    split at h
    · cases h
    · rename_i a u ha
      cases h
      obtain ⟨rfl, hl⟩ := takeBytes_ok ha
      have hlt := unLE_lt a
      rw [hl] at hlt
      have hn : (BitVec.ofNat 32 (unLE a)).toNat = unLE a := Nat.mod_eq_of_lt (by omega)
      exact ⟨by rw [encodeValue, hn, back 4 a hl, ht]; rfl, rfl⟩
  · rename_i ht
    have ht : tag = 3 := BitVec.eq_of_toNat_eq ht
    split at h
    · cases h
    · rename_i s u hs
      cases h
      obtain ⟨rfl, hl⟩ := takeCounted_ok hs
      exact ⟨by rw [ht]; rfl, decide_eq_true hl⟩
  · cases h

end Sys2Proof
end

