-- ==== Sys2Proof/Laws/State.lean ====
section
/-! SUPPORT. The small lemmas of the state: one per field per update, true by rfl, so that no proof unfolds an update. -/

namespace Sys2Proof.Machine

@[simp] theorem respond_block (s : State) (r : Response) : (s.respond r).block = s.block := rfl
@[simp] theorem respond_inbox (s : State) (r : Response) : (s.respond r).inbox = s.inbox := rfl
@[simp] theorem respond_outbox (s : State) (r : Response) : (s.respond r).outbox = s.outbox ++ [r.marshal] := rfl

@[simp] theorem answered_block (s : State) (b : Block) (p : Bytes) : (s.answered b p).block = b := rfl
@[simp] theorem answered_inbox (s : State) (b : Block) (p : Bytes) : (s.answered b p).inbox = s.inbox := rfl
@[simp] theorem answered_outbox (s : State) (b : Block) (p : Bytes) : (s.answered b p).outbox = s.outbox ++ [p] := rfl

@[simp] theorem present_block (s : State) (p : Bytes) : (s.present p).block = s.block := rfl
@[simp] theorem present_inbox (s : State) (p : Bytes) : (s.present p).inbox = .command p :: s.inbox := rfl
@[simp] theorem present_outbox (s : State) (p : Bytes) : (s.present p).outbox = s.outbox := rfl

@[simp] theorem rbufAppend_crc (b : Block) (s : Bytes) : (b.rbufAppend s).crc = b.crc := rfl
@[simp] theorem rbufAppend_rbuf (b : Block) (s : Bytes) : (b.rbufAppend s).rbuf = b.rbuf ++ s := rfl
@[simp] theorem rbufAppend_status (b : Block) (s : Bytes) : (b.rbufAppend s).status = b.status := rfl

@[simp] theorem rbufDrop_crc (b : Block) (n : Nat) : (b.rbufDrop n).crc = b.crc := rfl
@[simp] theorem rbufDrop_rbuf (b : Block) (n : Nat) : (b.rbufDrop n).rbuf = b.rbuf.drop n := rfl
@[simp] theorem rbufDrop_status (b : Block) (n : Nat) : (b.rbufDrop n).status = b.status := rfl

@[simp] theorem setCrc_crc (b : Block) (c : BitVec 16) : (b.setCrc c).crc = c := rfl
@[simp] theorem setCrc_rbuf (b : Block) (c : BitVec 16) : (b.setCrc c).rbuf = b.rbuf := rfl
@[simp] theorem setCrc_status (b : Block) (c : BitVec 16) : (b.setCrc c).status = b.status := rfl

@[simp] theorem setRbuf_crc (b : Block) (s : Bytes) : (b.setRbuf s).crc = b.crc := rfl
@[simp] theorem setRbuf_rbuf (b : Block) (s : Bytes) : (b.setRbuf s).rbuf = s := rfl
@[simp] theorem setRbuf_status (b : Block) (s : Bytes) : (b.setRbuf s).status = b.status := rfl

@[simp] theorem raiseFault_crc (b : Block) (c : Cause) : (b.raiseFault c).crc = b.crc := rfl
@[simp] theorem raiseFault_rbuf (b : Block) (c : Cause) : (b.raiseFault c).rbuf = b.rbuf := rfl
@[simp] theorem raiseFault_status (b : Block) (c : Cause) :
    (b.raiseFault c).status = statusWithFault b.status c.code := rfl

@[simp] theorem restart_crc (b : Block) : b.restart.crc = 0x0000 := rfl
@[simp] theorem restart_rbuf (b : Block) : b.restart.rbuf = [] := rfl
@[simp] theorem restart_status (b : Block) : b.restart.status = 0x00 := rfl

end Sys2Proof.Machine
end

