-- ==== Sys2Proof/Laws/Exec.lean ====
section
/-! SUPPORT. What a command can do, said once: `exec` answers the stored cause when the block is faulted, and otherwise
finishes with the ending of the command's own rule. -/

namespace Sys2Proof.Machine

/-- The ending of a command's own rule (44_system.md R130 step 3). -/
def endingOf (i : Instr) (s : State) : Ending :=
  match i with
  | .nop => .ok s.block .nothing
  | .crcClr => .ok (s.block.setCrc 0x0000) .nothing
  | .crcUpd b => .ok (s.block.setCrc (crcStep s.block.crc b)) .nothing
  | .crcRd => .ok s.block (.crc s.block.crc)
  | .crc16 buf => .ok (s.block.setCrc (crc16 buf)) (.crc (crc16 buf))
  | .fenc dest src func payload =>
    if maxPayload < payload.length then .err .lengthError else .ok s.block (.bytes (fenc dest src func payload))
  | .fdec body => if body.length < 7 then .err .decodeError else .ok s.block (.frame (fdec body))
  | .venc type exp value => vencEnding s (vencAny Config.params type exp value)
  | .vdec type exp data => vdecEnding s (vdecAny Config.params type exp data)
  | .rsmFeed chunk => feedEnding Config.params s.block chunk
  | .rsmRst => .ok (s.block.setRbuf []) .nothing
  | .rsmLvl => .ok s.block (.level s.block.rlevel)
  | .rdstat => .ok s.block (.statusReg (statusRead s.block.status))
  | .reset => .ok s.block.restart .nothing
  | .vencI8 exp value => vencEnding s (vencIntType Config.params .i8 exp value)
  | .vencU8 exp value => vencEnding s (vencIntType Config.params .u8 exp value)
  | .vencI16 exp value => vencEnding s (vencIntType Config.params .i16 exp value)
  | .vencU16 exp value => vencEnding s (vencIntType Config.params .u16 exp value)
  | .vencI32 exp value => vencEnding s (vencIntType Config.params .i32 exp value)
  | .vencU32 exp value => vencEnding s (vencIntType Config.params .u32 exp value)
  | .vencBool exp value => vencEnding s (vencBool exp value)
  | .vencFloat exp value => vencEnding s (vencFloat exp value)
  | .vencString exp value => vencEnding s (vencString exp value)
  | .vdecI8 exp data => vdecEnding s (vdecIntType Config.params .i8 exp data)
  | .vdecU8 exp data => vdecEnding s (vdecIntType Config.params .u8 exp data)
  | .vdecI16 exp data => vdecEnding s (vdecIntType Config.params .i16 exp data)
  | .vdecU16 exp data => vdecEnding s (vdecIntType Config.params .u16 exp data)
  | .vdecI32 exp data => vdecEnding s (vdecIntType Config.params .i32 exp data)
  | .vdecU32 exp data => vdecEnding s (vdecIntType Config.params .u32 exp data)
  | .vdecBool exp data => vdecEnding s (vdecBool exp data)
  | .vdecFloat exp data => vdecEnding s (vdecFloat Config.params exp data)
  | .vdecString exp data => vdecEnding s (vdecString exp data)

/-- `always` answers the ending. -/
theorem always_eq (s : State) (e : Ending) : always s e = .next (s.finish e) := rfl

/-- `working` answers the ending when the block is not faulted. -/
theorem working_running {s : State} (h : s.running) (e : Ending) : working s e = .next (s.finish e) := by
  simp only [working, show s.block.faulted = false from h, Bool.false_eq_true, if_false]

/-- `working` answers the stored cause when the block is faulted. -/
theorem working_faulted {s : State} (h : s.block.faulted = true) (e : Ending) :
    working s e = .next (s.respond (.faulted s.block.cause)) := by
  simp only [working, h, if_true]

/-- Everything `exec` can do. -/
theorem exec_eq (i : Instr) (s : State) :
    exec i s = .next (if s.block.faulted && !answersWhenFaulted i then s.respond (.faulted s.block.cause)
      else s.finish (endingOf i s)) := by
  cases i <;> simp [exec, answersWhenFaulted, endingOf, working, always, execNop, execRdstat, execReset, execCrcClr,
    execCrcUpd, execCrcRd, execCrc16, execFenc, execFdec, execVenc, execVdec, execRsmFeed, execRsmRst, execRsmLvl,
    execVencI8, execVencU8, execVencI16, execVencU16, execVencI32, execVencU32, execVencBool, execVencFloat,
    execVencString, execVdecI8, execVdecU8, execVdecI16, execVdecU16, execVdecI32, execVdecU32, execVdecBool,
    execVdecFloat, execVdecString]

/-- A command on a running block finishes with its own ending. -/
theorem exec_running {s : State} (h : s.running) (i : Instr) : exec i s = .next (s.finish (endingOf i s)) := by
  rw [exec_eq, show s.block.faulted = false from h]; rfl

/-- A command that is always answered finishes with its own ending. -/
theorem exec_always {i : Instr} (h : answersWhenFaulted i = true) (s : State) :
    exec i s = .next (s.finish (endingOf i s)) := by
  rw [exec_eq, h]; simp

/-- A working command on a faulted block answers the stored cause. -/
theorem exec_faulted {s : State} (h : s.block.faulted = true) {i : Instr} (hi : answersWhenFaulted i = false) :
    exec i s = .next (s.respond (.faulted s.block.cause)) := by
  rw [exec_eq, h, hi]; rfl

/-- Finishing with a result. -/
theorem finish_ok (s : State) (b : Block) (r : Result) :
    s.finish (.ok b r) = s.answered b (0x00 :: r.marshal) := rfl

/-- Finishing with an error. -/
theorem finish_err (s : State) (e : Error) : s.finish (.err e) = s.answered s.block [e.code] := rfl

/-- Finishing with a fault. -/
theorem finish_raise (s : State) (c : Cause) :
    s.finish (.raise c) = s.answered (s.block.raiseFault c) [0x80, c.code.zeroExtend 8] := rfl

/-- Everything a VENC ending can be. -/
theorem vencEnding_cases (s : State) (x : Except Error Bytes) :
    (∃ d, x = .ok d ∧ vencEnding s x = .ok s.block (.bytes d)) ∨ ∃ e, x = .error e ∧ vencEnding s x = .err e := by
  cases x with
  | ok d => exact .inl ⟨d, rfl, rfl⟩
  | error e => exact .inr ⟨e, rfl, rfl⟩

/-- Everything a VDEC ending can be. -/
theorem vdecEnding_cases (s : State) (x : Except Error Value) :
    (∃ v, x = .ok v ∧ vdecEnding s x = .ok s.block (.value v)) ∨ ∃ e, x = .error e ∧ vdecEnding s x = .err e := by
  cases x with
  | ok v => exact .inl ⟨v, rfl, rfl⟩
  | error e => exact .inr ⟨e, rfl, rfl⟩

/-- Everything a feed can end with: refused whole, a new RBUF and frames, or the fault. -/
theorem feedEnding_cases (P : Params) (b : Block) (chunk : Bytes) :
    (overflows P (b.rbuf.length + chunk.length) = true ∧ feedEnding P b chunk = .err .bufferOverflow) ∨
    (overflows P (b.rbuf.length + chunk.length) = false ∧
      ((∃ rest frames, parseStream (b.rbuf ++ chunk) = .done rest frames ∧
          feedEnding P b chunk = .ok (b.setRbuf rest) (.frames frames)) ∨
        (parseStream (b.rbuf ++ chunk) = .shortLength ∧ feedEnding P b chunk = .raise .shortLength))) := by
  unfold feedEnding
  cases h : overflows P (b.rbuf.length + chunk.length)
  · refine .inr ⟨rfl, ?_⟩
    simp only [Bool.false_eq_true, if_false, rbufAppend_rbuf]
    cases parseStream (b.rbuf ++ chunk) with
    | done rest frames => exact .inl ⟨rest, frames, rfl, rfl⟩
    | shortLength => exact .inr ⟨rfl, rfl⟩
  · exact .inl ⟨rfl, rfl⟩

end Sys2Proof.Machine
end

