-- ==== Sys2Proof/Laws/Frame.lean ====
section
/-! SUPPORT. Laws of the frame codec: the lengths of an encoded frame and where its parts stand. -/

namespace Sys2Proof.Machine

/-- An encoded frame: start byte, body, the body's checksum big-endian, stop byte. -/
theorem fenc_eq (dest src : BitVec 16) (func : Byte) (payload : Bytes) :
    fenc dest src func payload = startByte :: (frameBody dest src func payload ++
      [(crc16 (frameBody dest src func payload)).extractLsb' 8 8, (crc16 (frameBody dest src func payload)).extractLsb' 0 8,
        stopByte]) := by
  simp [fenc, be16]

@[simp] theorem frameBody_length (dest src : BitVec 16) (func : Byte) (payload : Bytes) :
    (frameBody dest src func payload).length = payload.length + 7 := by
  simp [frameBody]; omega

@[simp] theorem fenc_length (dest src : BitVec 16) (func : Byte) (payload : Bytes) :
    (fenc dest src func payload).length = payload.length + 11 := by
  simp [fenc_eq]

/-- The slice of a sequence with one byte before it. -/
theorem slice_cons_append (a : Byte) (x t : Bytes) (n : Nat) (h : x.length = n) : slice (a :: (x ++ t)) 1 (n + 1) = x := by
  subst h; simp [slice]

/-- What the checksum of an encoded frame covers. -/
theorem fenc_covered (dest src : BitVec 16) (func : Byte) (payload : Bytes) :
    slice (fenc dest src func payload) 1 (payload.length + 8) = frameBody dest src func payload := by
  rw [fenc_eq]; exact slice_cons_append _ _ _ _ (frameBody_length ..)

/-- The length field of a body holds the payload's length plus 5. -/
theorem frameLength_read (payload : Bytes) (h : payload.length ≤ maxPayload) :
    unLE (le16 (BitVec.ofNat 16 (5 + payload.length))) = payload.length + 5 := by
  rw [unLE_le16, BitVec.toNat_ofNat]
  have : payload.length ≤ 65530 := h
  omega

/-- The positional split of a body gives its parts back. -/
theorem fdec_frameBody (dest src : BitVec 16) (func : Byte) (payload : Bytes) :
    fdec (frameBody dest src func payload) = { dest := dest, src := src, func := func, payload := payload } := by
  have := unLE_le16 dest
  have := unLE_le16 src
  simp_all [fdec, frameBody, le16, slice]

end Sys2Proof.Machine
end

