-- ==== Sys2Proof/Laws/PerInstr.lean ====
section
/-! SUPPORT. Statements made per instruction. Family `RowBytes`: the packet of a command begins with the fixed bytes that its row
of spec/opcode_table.json gives it (30_encoding.md R67), and a well-formed k = 1 VENC or VDEC avoids the k = 2 rows. -/

namespace Sys2Proof.Laws

open Sys2Proof Sys2Proof.Machine

/-- The fixed bytes of a command's row, byte 0 first. -/
def rowBytes : Instr → Bytes
  | .nop => [0x00]
  | .crcClr => [0x01]
  | .crcUpd _ => [0x02]
  | .crcRd => [0x03]
  | .crc16 _ => [0x04]
  | .fenc _ _ _ _ => [0x10]
  | .fdec _ => [0x11]
  | .venc _ _ _ => [0x20]
  | .vdec _ _ _ => [0x21]
  | .rsmFeed _ => [0x30]
  | .rsmRst => [0x31]
  | .rsmLvl => [0x32]
  | .rdstat => [0x40]
  | .reset => [0xFF]
  | .vencI8 _ _ => [0x20, 0x00]
  | .vencU8 _ _ => [0x20, 0x01]
  | .vencI16 _ _ => [0x20, 0x02]
  | .vencU16 _ _ => [0x20, 0x03]
  | .vencI32 _ _ => [0x20, 0x04]
  | .vencU32 _ _ => [0x20, 0x05]
  | .vencBool _ _ => [0x20, 0x06]
  | .vencFloat _ _ => [0x20, 0x07]
  | .vencString _ _ => [0x20, 0x08]
  | .vdecI8 _ _ => [0x21, 0x00]
  | .vdecU8 _ _ => [0x21, 0x01]
  | .vdecI16 _ _ => [0x21, 0x02]
  | .vdecU16 _ _ => [0x21, 0x03]
  | .vdecI32 _ _ => [0x21, 0x04]
  | .vdecU32 _ _ => [0x21, 0x05]
  | .vdecBool _ _ => [0x21, 0x06]
  | .vdecFloat _ _ => [0x21, 0x07]
  | .vdecString _ _ => [0x21, 0x08]

/-- The packet begins with the row's bytes; when the row fixes one byte of a command that has typed rows, the next byte is none
of their type codes. -/
def RowBytes.Statement (i : Instr) : Prop :=
  (∃ rest, encode i = rowBytes i ++ rest) ∧
    (i.wellFormed = true → rowBytes i = [0x20] ∨ rowBytes i = [0x21] → 9 ≤ ((encode i).getD 1 0).toNat)

theorem RowBytes.nop : RowBytes.Statement .nop :=
  ⟨⟨_, rfl⟩, fun _ h => by rcases h with h | h <;> simp [rowBytes] at h⟩

theorem RowBytes.crcClr : RowBytes.Statement .crcClr :=
  ⟨⟨_, rfl⟩, fun _ h => by rcases h with h | h <;> simp [rowBytes] at h⟩

theorem RowBytes.crcUpd (b : Byte) : RowBytes.Statement (.crcUpd b) :=
  ⟨⟨_, rfl⟩, fun _ h => by rcases h with h | h <;> simp [rowBytes] at h⟩

theorem RowBytes.crcRd : RowBytes.Statement .crcRd :=
  ⟨⟨_, rfl⟩, fun _ h => by rcases h with h | h <;> simp [rowBytes] at h⟩

theorem RowBytes.crc16 (buf : Bytes) : RowBytes.Statement (.crc16 buf) :=
  ⟨⟨_, rfl⟩, fun _ h => by rcases h with h | h <;> simp [rowBytes] at h⟩

theorem RowBytes.fenc (dest src : BitVec 16) (func : Byte) (payload : Bytes) : RowBytes.Statement (.fenc dest src func payload) :=
  ⟨⟨_, rfl⟩, fun _ h => by rcases h with h | h <;> simp [rowBytes] at h⟩

theorem RowBytes.fdec (body : Bytes) : RowBytes.Statement (.fdec body) :=
  ⟨⟨_, rfl⟩, fun _ h => by rcases h with h | h <;> simp [rowBytes] at h⟩

theorem RowBytes.venc (type exp : Byte) (value : Value) : RowBytes.Statement (.venc type exp value) :=
  by
  refine ⟨⟨_, rfl⟩, fun h _ => ?_⟩
  simp only [Instr.wellFormed, Bool.and_eq_true] at h
  exact of_decide_eq_true h.1

theorem RowBytes.vdec (type exp : Byte) (data : Bytes) : RowBytes.Statement (.vdec type exp data) :=
  by
  refine ⟨⟨_, rfl⟩, fun h _ => ?_⟩
  simp only [Instr.wellFormed, Bool.and_eq_true] at h
  exact of_decide_eq_true h.1

theorem RowBytes.rsmFeed (chunk : Bytes) : RowBytes.Statement (.rsmFeed chunk) :=
  ⟨⟨_, rfl⟩, fun _ h => by rcases h with h | h <;> simp [rowBytes] at h⟩

theorem RowBytes.rsmRst : RowBytes.Statement .rsmRst :=
  ⟨⟨_, rfl⟩, fun _ h => by rcases h with h | h <;> simp [rowBytes] at h⟩

theorem RowBytes.rsmLvl : RowBytes.Statement .rsmLvl :=
  ⟨⟨_, rfl⟩, fun _ h => by rcases h with h | h <;> simp [rowBytes] at h⟩

theorem RowBytes.rdstat : RowBytes.Statement .rdstat :=
  ⟨⟨_, rfl⟩, fun _ h => by rcases h with h | h <;> simp [rowBytes] at h⟩

theorem RowBytes.reset : RowBytes.Statement .reset :=
  ⟨⟨_, rfl⟩, fun _ h => by rcases h with h | h <;> simp [rowBytes] at h⟩

theorem RowBytes.vencI8 (exp : Byte) (value : Value) : RowBytes.Statement (.vencI8 exp value) :=
  ⟨⟨_, rfl⟩, fun _ h => by rcases h with h | h <;> simp [rowBytes] at h⟩

theorem RowBytes.vencU8 (exp : Byte) (value : Value) : RowBytes.Statement (.vencU8 exp value) :=
  ⟨⟨_, rfl⟩, fun _ h => by rcases h with h | h <;> simp [rowBytes] at h⟩

theorem RowBytes.vencI16 (exp : Byte) (value : Value) : RowBytes.Statement (.vencI16 exp value) :=
  ⟨⟨_, rfl⟩, fun _ h => by rcases h with h | h <;> simp [rowBytes] at h⟩

theorem RowBytes.vencU16 (exp : Byte) (value : Value) : RowBytes.Statement (.vencU16 exp value) :=
  ⟨⟨_, rfl⟩, fun _ h => by rcases h with h | h <;> simp [rowBytes] at h⟩

theorem RowBytes.vencI32 (exp : Byte) (value : Value) : RowBytes.Statement (.vencI32 exp value) :=
  ⟨⟨_, rfl⟩, fun _ h => by rcases h with h | h <;> simp [rowBytes] at h⟩

theorem RowBytes.vencU32 (exp : Byte) (value : Value) : RowBytes.Statement (.vencU32 exp value) :=
  ⟨⟨_, rfl⟩, fun _ h => by rcases h with h | h <;> simp [rowBytes] at h⟩

theorem RowBytes.vencBool (exp : Byte) (value : Value) : RowBytes.Statement (.vencBool exp value) :=
  ⟨⟨_, rfl⟩, fun _ h => by rcases h with h | h <;> simp [rowBytes] at h⟩

theorem RowBytes.vencFloat (exp : Byte) (value : Value) : RowBytes.Statement (.vencFloat exp value) :=
  ⟨⟨_, rfl⟩, fun _ h => by rcases h with h | h <;> simp [rowBytes] at h⟩

theorem RowBytes.vencString (exp : Byte) (value : Value) : RowBytes.Statement (.vencString exp value) :=
  ⟨⟨_, rfl⟩, fun _ h => by rcases h with h | h <;> simp [rowBytes] at h⟩

theorem RowBytes.vdecI8 (exp : Byte) (data : Bytes) : RowBytes.Statement (.vdecI8 exp data) :=
  ⟨⟨_, rfl⟩, fun _ h => by rcases h with h | h <;> simp [rowBytes] at h⟩

theorem RowBytes.vdecU8 (exp : Byte) (data : Bytes) : RowBytes.Statement (.vdecU8 exp data) :=
  ⟨⟨_, rfl⟩, fun _ h => by rcases h with h | h <;> simp [rowBytes] at h⟩

theorem RowBytes.vdecI16 (exp : Byte) (data : Bytes) : RowBytes.Statement (.vdecI16 exp data) :=
  ⟨⟨_, rfl⟩, fun _ h => by rcases h with h | h <;> simp [rowBytes] at h⟩

theorem RowBytes.vdecU16 (exp : Byte) (data : Bytes) : RowBytes.Statement (.vdecU16 exp data) :=
  ⟨⟨_, rfl⟩, fun _ h => by rcases h with h | h <;> simp [rowBytes] at h⟩

theorem RowBytes.vdecI32 (exp : Byte) (data : Bytes) : RowBytes.Statement (.vdecI32 exp data) :=
  ⟨⟨_, rfl⟩, fun _ h => by rcases h with h | h <;> simp [rowBytes] at h⟩

theorem RowBytes.vdecU32 (exp : Byte) (data : Bytes) : RowBytes.Statement (.vdecU32 exp data) :=
  ⟨⟨_, rfl⟩, fun _ h => by rcases h with h | h <;> simp [rowBytes] at h⟩

theorem RowBytes.vdecBool (exp : Byte) (data : Bytes) : RowBytes.Statement (.vdecBool exp data) :=
  ⟨⟨_, rfl⟩, fun _ h => by rcases h with h | h <;> simp [rowBytes] at h⟩

theorem RowBytes.vdecFloat (exp : Byte) (data : Bytes) : RowBytes.Statement (.vdecFloat exp data) :=
  ⟨⟨_, rfl⟩, fun _ h => by rcases h with h | h <;> simp [rowBytes] at h⟩

theorem RowBytes.vdecString (exp : Byte) (data : Bytes) : RowBytes.Statement (.vdecString exp data) :=
  ⟨⟨_, rfl⟩, fun _ h => by rcases h with h | h <;> simp [rowBytes] at h⟩

end Sys2Proof.Laws
end

