-- ==== Sys2Proof/Laws/Reassembler.lean ====
section
/-! SUPPORT. Laws of the reassembler: every pass shortens the buffer, so the loop is its own recursion equation; the bytes
after a decided candidate do not matter to it. -/

namespace Sys2Proof.Machine

/-- Everything an examination can give. -/
theorem examine_cases (b : Bytes) :
    (examine b = .exit b ∧ (b.length < 3 ∨ b.length < lengthField b + 6)) ∨
    (3 ≤ b.length ∧ lengthField b + 6 ≤ b.length ∧
      ((candidatePasses (b.take (lengthField b + 6)) (lengthField b) = true ∧ lengthField b < 5 ∧
          examine b = .shortLength) ∨
       (candidatePasses (b.take (lengthField b + 6)) (lengthField b) = true ∧ 5 ≤ lengthField b ∧
          examine b = .accept (fdec (slice (b.take (lengthField b + 6)) 1 (3 + lengthField b)))
            (b.drop (lengthField b + 6))) ∨
       (candidatePasses (b.take (lengthField b + 6)) (lengthField b) = false ∧ examine b = .reject (b.drop 1)))) := by
  unfold examine
  by_cases h3 : b.length < 3
  · exact .inl ⟨by simp [h3], .inl h3⟩
  · by_cases hL : b.length < lengthField b + 6
    · exact .inl ⟨by simp [h3, hL], .inr hL⟩
    · refine .inr ⟨by omega, by omega, ?_⟩
      simp only [h3, hL, if_false]
      cases hc : candidatePasses (b.take (lengthField b + 6)) (lengthField b)
      · exact .inr (.inr ⟨rfl, by simp⟩)
      · by_cases h5 : lengthField b < 5
        · exact .inl ⟨rfl, h5, by simp [h5]⟩
        · exact .inr (.inl ⟨rfl, by omega, by simp [h5]⟩)

/-- Discarding noise leaves a suffix. -/
theorem seekStart_suffix (buf : Bytes) : ∃ gone, buf = gone ++ seekStart buf :=
  ⟨buf.takeWhile (fun b => b != startByte), (List.takeWhile_append_dropWhile).symm⟩

/-- What noise is followed by: nothing, or a start byte. -/
theorem seekStart_head (buf : Bytes) : seekStart buf = [] ∨ ∃ t, seekStart buf = startByte :: t := by
  induction buf with
  | nil => exact .inl rfl
  | cons b t ih =>
    by_cases h : b = startByte
    · exact .inr ⟨t, by simp [seekStart, h]⟩
    · have : seekStart (b :: t) = seekStart t := by simp [seekStart, h]
      rw [this]; exact ih

/-- Noise without a start byte is discarded. -/
theorem seekStart_noise (noise t : Bytes) (h : startByte ∉ noise) : seekStart (noise ++ t) = seekStart t := by
  induction noise with
  | nil => rfl
  | cons b n ih =>
    simp only [List.mem_cons, not_or] at h
    have hb : b ≠ startByte := fun e => h.1 e.symm
    rw [List.cons_append, ← ih h.2]
    simp [seekStart, hb]

theorem seekStart_start (t : Bytes) : seekStart (startByte :: t) = startByte :: t := by
  simp [seekStart]

/-- Seeking twice is seeking once, with more bytes behind. -/
theorem seekStart_append (x y : Bytes) : seekStart (x ++ y) = seekStart (seekStart x ++ y) := by
  induction x with
  | nil => rfl
  | cons b t ih =>
    by_cases h : b = startByte
    · subst h; rw [seekStart_start]
    · have e : ∀ u, seekStart (b :: u) = seekStart u := fun u => by simp [seekStart, h]
      rw [List.cons_append, e, e]; exact ih

/-- A pass that does not exit shortens the buffer, by a prefix. -/
theorem pass_shortens (buf : Bytes) :
    (∀ f rest, onePass buf = .accept f rest → rest.length < buf.length ∧ ∃ gone, buf = gone ++ rest) ∧
    (∀ rest, onePass buf = .reject rest → rest.length < buf.length ∧ ∃ gone, buf = gone ++ rest) := by
  obtain ⟨gone, hg⟩ := seekStart_suffix buf
  have hlen := congrArg List.length hg
  rw [List.length_append] at hlen
  have key : ∀ n, 1 ≤ n → 3 ≤ (seekStart buf).length →
      ((seekStart buf).drop n).length < buf.length ∧ ∃ gone, buf = gone ++ (seekStart buf).drop n := by
    intro n hn h3
    refine ⟨by rw [List.length_drop]; omega, gone ++ (seekStart buf).take n, ?_⟩
    rw [List.append_assoc, List.take_append_drop]; exact hg
  unfold onePass
  rcases examine_cases (seekStart buf) with ⟨h, -⟩ | ⟨h3, hL, ⟨-, -, h⟩ | ⟨-, -, h⟩ | ⟨-, h⟩⟩ <;> rw [h]
  · exact ⟨fun _ _ e => (nomatch e), fun _ e => (nomatch e)⟩
  · exact ⟨fun _ _ e => (nomatch e), fun _ e => (nomatch e)⟩
  · refine ⟨fun _ _ e => ?_, fun _ e => (nomatch e)⟩
    cases e; exact key _ (by omega) h3
  · refine ⟨fun _ _ e => (nomatch e), fun _ e => ?_⟩
    cases e; exact key _ (by omega) h3

/-- More passes than bytes are never used up. -/
theorem parsePasses_enough (m n : Nat) (buf : Bytes) (hm : buf.length < m) (hn : buf.length < n) :
    parsePasses m buf = parsePasses n buf := by
  induction m generalizing n buf with
  | zero => omega
  | succ m ih =>
    cases n with
    | zero => omega
    | succ n =>
      obtain ⟨ha, hr⟩ := pass_shortens buf
      unfold parsePasses
      cases hp : onePass buf with
      | exit rest => rfl
      | shortLength => rfl
      | accept f rest =>
        have := (ha f rest hp).1
        simp only [ih n rest (by omega) (by omega)]
      | reject rest =>
        have := (hr rest hp).1
        simp only [ih n rest (by omega) (by omega)]

/-- The loop of R90 as a recursion. -/
theorem parseStream_eq (buf : Bytes) :
    parseStream buf = match onePass buf with
      | .exit rest => .done rest []
      | .accept f rest => (parseStream rest).cons f
      | .reject rest => parseStream rest
      | .shortLength => .shortLength := by
  obtain ⟨ha, hr⟩ := pass_shortens buf
  conv => lhs; unfold parseStream parsePasses
  cases hp : onePass buf with
  | exit rest => rfl
  | shortLength => rfl
  | accept f rest =>
    have := (ha f rest hp).1
    simp only [parseStream]
    rw [parsePasses_enough _ (rest.length + 1) rest this (by omega)]
  | reject rest =>
    have := (hr rest hp).1
    simp only [parseStream]
    rw [parsePasses_enough _ (rest.length + 1) rest this (by omega)]

/-- The length field stands in the first three bytes. -/
theorem lengthField_append (b y : Bytes) (h : 3 ≤ b.length) : lengthField (b ++ y) = lengthField b := by
  unfold lengthField; rw [slice_append _ _ _ _ h]

/-- The bytes behind a whole candidate do not matter to its examination. -/
theorem examine_append (b y : Bytes) (h3 : 3 ≤ b.length) (hL : lengthField b + 6 ≤ b.length) :
    examine (b ++ y) = match examine b with
      | .exit rest => .exit rest
      | .accept f rest => .accept f (rest ++ y)
      | .reject rest => .reject (rest ++ y)
      | .shortLength => .shortLength := by
  have hf := lengthField_append b y h3
  have ht : (b ++ y).take (lengthField b + 6) = b.take (lengthField b + 6) := List.take_append_of_le_length hL
  have hd : ∀ n, n ≤ b.length → (b ++ y).drop n = b.drop n ++ y := fun n hn => List.drop_append_of_le_length hn
  have h3' : 3 ≤ (b ++ y).length := by rw [List.length_append]; omega
  have hL' : lengthField (b ++ y) + 6 ≤ (b ++ y).length := by rw [hf, List.length_append]; omega
  rcases examine_cases (b ++ y) with ⟨-, h⟩ | ⟨-, -, h⟩
  · omega
  rw [hf, ht, hd _ hL, hd 1 (by omega)] at h
  rcases examine_cases b with ⟨-, h'⟩ | ⟨-, -, h'⟩
  · omega
  rcases h with ⟨a, c, e⟩ | ⟨a, c, e⟩ | ⟨a, e⟩ <;> rcases h' with ⟨a', c', e'⟩ | ⟨a', c', e'⟩ | ⟨a', e'⟩ <;>
    first | omega | (rw [a] at a'; exact absurd a' (by decide)) | rw [e, e']

end Sys2Proof.Machine
end

