-- ==== Sys2Proof/Laws/Value.lean ====
section
/-! SUPPORT. Laws of the value codec: what rounding does beside floor division, the scaling exponent, the bounds of a wire
integer, and what a VENC or a VDEC answers. -/

namespace Sys2Proof.Machine

/-- Rounding beside floor division: quotient f, remainder r, and which of f and f + 1 is taken. -/
theorem rnd_cases (p q : Int) (tie : RoundTie) (h : 0 < q) :
    ∃ f r, p = q * f + r ∧ 0 ≤ r ∧ r < q ∧ f = p / q ∧
      ((2 * r < q ∧ rnd p q tie = f) ∨ (q < 2 * r ∧ rnd p q tie = f + 1) ∨
        (2 * r = q ∧ rnd p q tie = match tie with
          | .halfEven => if f % 2 = 0 then f else f + 1
          | .halfAway => if 0 < p then f + 1 else f)) := by
  have h1 := Int.emod_add_mul_ediv p q
  have hr : p - p / q * q = p % q := by rw [Int.mul_comm]; omega
  refine ⟨p / q, p % q, by omega, Int.emod_nonneg p (by omega), Int.emod_lt_of_pos p h, rfl, ?_⟩
  unfold rnd
  simp only [hr]
  by_cases a : 2 * (p % q) < q
  · simp [a]
  · by_cases b : q < 2 * (p % q)
    · simp [a, b]
    · have : 2 * (p % q) = q := by omega
      simp only [this, if_false, lt_irrefl, false_and, true_and, false_or]
      all_goals cases tie <;> rfl

/-- Rounding an exact multiple. -/
theorem rnd_mul (a q : Int) (tie : RoundTie) (h : 0 < q) : rnd (a * q) q tie = a := by
  have e : a * q / q = a := Int.mul_ediv_cancel _ (by omega)
  simp [rnd, e]; omega

theorem pow10_pos (n : Int) : 0 < pow10 n := by unfold pow10; positivity

/-- The scaling exponent by the sign. -/
theorem scaleK_eq (P : Params) (e : Int) : scaleK P e = if P.scaleSign = .plus then e else -e := by
  unfold scaleK signOf; cases P.scaleSign <;> simp

/-- The exponents admitted, on the byte. -/
theorem expAdmitted_iff (e : Byte) : expAdmitted (expOf e) = true ↔ -7 ≤ e.toInt ∧ e.toInt ≤ 7 := by
  rw [expOf_eq_toInt]; unfold expAdmitted Config.expMin Config.expMax; rw [decide_eq_true_iff]

/-- A wire integer is in the range of its type. -/
theorem rawOf_bounds (T : IntType) (data : Bytes) (h : T.width ≤ data.length) :
    T.lo ≤ rawOf T data ∧ rawOf T data ≤ T.hi := by
  have hl := unLE_lt (slice data 0 T.width)
  rw [slice_length _ _ _ h] at hl
  cases T <;> simp [rawOf, IntType.signed, IntType.lo, IntType.hi, IntType.width, sext, IntType.bits] at hl ⊢ <;>
    (try split) <;> omega

/-- Packing what was read gives the bytes back. -/
theorem pack_rawOf (T : IntType) (d : Bytes) (h : d.length = T.width) :
    leBytes T.width (rawOf T d % 2 ^ T.bits).toNat = d := by
  have hs : slice d 0 T.width = d := by simp [slice, ← h]
  have hl := unLE_lt d
  have : (rawOf T d % 2 ^ T.bits).toNat = unLE d := by
    unfold rawOf
    rw [hs]
    rw [h] at hl
    cases T <;> simp [IntType.signed, IntType.bits, IntType.width, sext] at hl ⊢ <;> (try split) <;> omega
  rw [this, ← h, leBytes_unLE]

/-- Reading what was packed gives the integer back. -/
theorem rawOf_pack (T : IntType) (r : Int) (h : T.lo ≤ r ∧ r ≤ T.hi) :
    rawOf T (leBytes T.width (r % 2 ^ T.bits).toNat) = r := by
  have : slice (leBytes T.width (r % 2 ^ T.bits).toNat) 0 T.width = leBytes T.width (r % 2 ^ T.bits).toNat := by
    simp [slice]
  unfold rawOf
  rw [this, unLE_leBytes]
  cases T <;> simp [IntType.lo, IntType.hi, IntType.signed, IntType.bits, IntType.width, sext] at h ⊢ <;>
    (try split) <;> omega

/-- The ending of the VENC row of an integer type. -/
theorem endingOf_venc (T : IntType) (exp : Byte) (v : Value) (s : State) :
    endingOf (T.venc exp v) s = vencEnding s (vencIntType Config.params T exp v) := by cases T <;> rfl

/-- The ending of the VDEC row of an integer type. -/
theorem endingOf_vdec (T : IntType) (exp : Byte) (d : Bytes) (s : State) :
    endingOf (T.vdec exp d) s = vdecEnding s (vdecIntType Config.params T exp d) := by cases T <;> rfl

/-- What a VENC answers on a running block. -/
theorem exec_vencEnding {s : State} (hs : s.running) {i : Instr} {x : Except Error Bytes}
    (h : endingOf i s = vencEnding s x) :
    exec i s = .next (s.answered s.block
      (match (generalizing := false) x with | .ok d => 0x00 :: encodeCounted d | .error e => [e.code])) := by
  rw [exec_running hs, h]; cases x <;> rfl

/-- What a VDEC answers on a running block. -/
theorem exec_vdecEnding {s : State} (hs : s.running) {i : Instr} {x : Except Error Value}
    (h : endingOf i s = vdecEnding s x) :
    exec i s = .next (s.answered s.block
      (match (generalizing := false) x with | .ok v => 0x00 :: encodeValue v | .error e => [e.code])) := by
  rw [exec_running hs, h]; cases x <;> rfl

end Sys2Proof.Machine
end

