-- ==== Sys2Proof/Machine/Text.lean ====
section
/-! DEFINITION. The textual syntax of commands (30_encoding.md R64) and of the pseudo-commands (R66). -/

namespace Sys2Proof.Machine

/-- One hexadecimal digit, capital as the spec writes it. -/
def hexDigit (n : Nat) : Char := if n < 10 then Char.ofNat (48 + n) else Char.ofNat (55 + n)

/-- The n low hexadecimal digits of v, most significant first. -/
def hexDigits : Nat → Nat → List Char
  | 0, _ => []
  | n + 1, v => hexDigits n (v / 16) ++ [hexDigit (v % 16)]

/-- `0x` and n hexadecimal digits. -/
def hexText (n v : Nat) : String := "0x" ++ String.ofList (hexDigits n v)

/-- A byte sequence: `[` hexadecimal bytes separated by spaces `]`, `[]` when empty. -/
def bytesText (s : Bytes) : String :=
  "[" ++ String.intercalate " " (s.map fun b => String.ofList (hexDigits 2 b.toNat)) ++ "]"

/-- A signed decimal. -/
def intText (n : Int) : String := if n < 0 then "-" ++ toString n.natAbs else toString n.natAbs

/-- `NUM d.dd`, `BOOL true` / `BOOL false`, `F32 0x` 8 digits, or `STR [bytes]`. -/
def valueText : Value → String
  | .num c =>
    let a := c.toInt.natAbs
    "NUM " ++ (if c.toInt < 0 then "-" else "") ++ toString (a / 100) ++ "." ++ toString (a % 100 / 10)
      ++ toString (a % 10)
  | .bool t => if t then "BOOL true" else "BOOL false"
  | .f32 p => "F32 " ++ hexText 8 p.toNat
  | .str s => "STR " ++ bytesText s

/-- VENC with the type written as given. -/
def vencText (type : String) (exp : Byte) (value : Value) : String :=
  "VENC " ++ type ++ ", exp=" ++ intText (expOf exp) ++ ", " ++ valueText value

/-- VDEC with the type written as given. -/
def vdecText (type : String) (exp : Byte) (data : Bytes) : String :=
  "VDEC " ++ type ++ ", exp=" ++ intText (expOf exp) ++ ", " ++ bytesText data

/-- A command as a line of text (R64). A type code without a name is written as the u8 operand it is. -/
def instrText : Instr → String
  | .nop => "NOP"
  | .crcClr => "CRC.CLR"
  | .crcUpd b => "CRC.UPD " ++ hexText 2 b.toNat
  | .crcRd => "CRC.RD"
  | .crc16 buf => "CRC16 " ++ bytesText buf
  | .fenc dest src func payload =>
    "FENC dest=" ++ hexText 4 dest.toNat ++ ", src=" ++ hexText 4 src.toNat ++ ", func=" ++ hexText 2 func.toNat
      ++ ", payload=" ++ bytesText payload
  | .fdec body => "FDEC " ++ bytesText body
  | .venc type exp value => vencText (hexText 2 type.toNat) exp value
  | .vdec type exp data => vdecText (hexText 2 type.toNat) exp data
  | .rsmFeed chunk => "RSM.FEED " ++ bytesText chunk
  | .rsmRst => "RSM.RST"
  | .rsmLvl => "RSM.LVL"
  | .rdstat => "RDSTAT"
  | .reset => "RESET"
  | .vencI8 exp value => vencText "I8" exp value
  | .vencU8 exp value => vencText "U8" exp value
  | .vencI16 exp value => vencText "I16" exp value
  | .vencU16 exp value => vencText "U16" exp value
  | .vencI32 exp value => vencText "I32" exp value
  | .vencU32 exp value => vencText "U32" exp value
  | .vencBool exp value => vencText "BOOL" exp value
  | .vencFloat exp value => vencText "FLOAT" exp value
  | .vencString exp value => vencText "STRING" exp value
  | .vdecI8 exp data => vdecText "I8" exp data
  | .vdecU8 exp data => vdecText "U8" exp data
  | .vdecI16 exp data => vdecText "I16" exp data
  | .vdecU16 exp data => vdecText "U16" exp data
  | .vdecI32 exp data => vdecText "I32" exp data
  | .vdecU32 exp data => vdecText "U32" exp data
  | .vdecBool exp data => vdecText "BOOL" exp data
  | .vdecFloat exp data => vdecText "FLOAT" exp data
  | .vdecString exp data => vdecText "STRING" exp data

/-- A pseudo-command as a line of text (R66). -/
def pseudoText : Pseudo → String
  | .crcStream bytes => "CRC.STREAM " ++ bytesText bytes
  | .vencWord exp value => vencText "WORD" exp value
  | .vdecWord exp data => vdecText "WORD" exp data
  | .xferBegin => "XFER.BEGIN"

end Sys2Proof.Machine
end

