-- ==== Sys2Proof/Tests/Slice0.lean ====
section
/-! SUPPORT. Tests. Expected results are taken from spec/95_test_vectors.md (the T, P or section named in the comment) or worked out
by hand from the rule named. After the tests stand the witnesses: for each statement with hypotheses, a concrete case that meets
all of them. -/

namespace Sys2Proof.Tests

open Sys2Proof Sys2Proof.Machine

/-- The state a step gives, if it gives one. -/
def after : Host.Outcome State Fault Refusal → Option State
  | .next t => some t
  | .fault _ => none
  | .refused _ => none

/-- The block and the last response packet after a step. -/
def seen (o : Host.Outcome State Fault Refusal) : Option (Block × Option Bytes) :=
  (after o).map fun t => (t.block, t.outbox.getLast?)

/-- A block with nothing presented to it. -/
def blockAt (crc : BitVec 16) (rbuf : Bytes) (status : Byte) : State :=
  { block := { crc := crc, rbuf := rbuf, status := status }, inbox := [], outbox := [] }

/-- The response packet of a command on the reset block. -/
def answer (i : Instr) : Option Bytes := (seen (exec i State.reset)).bind (·.2)

/-- The parameters with a given sign and tie rule, unbounded RBUF and no FLOAT_SCALE. -/
def par (s : ScaleSign) (t : RoundTie) : Params := { scaleSign := s, roundTie := t, rbufCap := none, floatScale := none }

/-- Parameters with a FLOAT_SCALE. -/
def parScale : Params :=
  { scaleSign := .minus
    roundTie := .halfEven
    rbufCap := none
    floatScale := some fun p k => .f32 (p + BitVec.ofInt 32 k) }

/-- Parameters with the least bounded RBUF. -/
def parCap : Params :=
  { scaleSign := .plus
    roundTie := .halfEven
    rbufCap := some { bytes := 65541, atLeast := Nat.le_refl 65541 }
    floatScale := none }

/-- `NUM c / 100`. -/
def num (c : Int) : Value := .num (BitVec.ofInt 64 c)

/-- F1 of 95_test_vectors.md. -/
def f1 : Bytes := [0x68, 0x05, 0x00, 0x01, 0x00, 0x02, 0x00, 0x43, 0xC5, 0x31, 0x16]

/-! ### WellFormed refuses what no packet spells -/

theorem test_wf_text_too_long (n : Nat) (h : 2 ^ 32 ≤ n) (e : Byte) :
    (Instr.vencString e (.str (List.replicate n 0))).wellFormed = false := by
  simp [Instr.wellFormed, Value.wellFormed, Bytes.fitsCount]; omega

theorem test_wf_chunk_too_long (n : Nat) (h : 2 ^ 32 ≤ n) : (Instr.rsmFeed (List.replicate n 0)).wellFormed = false := by
  simp [Instr.wellFormed, Bytes.fitsCount]; omega

theorem test_wf_venc_known_type : (Instr.venc 8 0 (.bool true)).wellFormed = false := by decide

theorem test_wf_vdec_known_type : (Instr.vdec 0 0 []).wellFormed = false := by decide

theorem test_wf_accepts : (Instr.venc 9 0 (.bool true)).wellFormed = true ∧ (Instr.crc16 [0x31]).wellFormed = true := by
  decide

/-! ### Decoding: a written-out word for every constructor (95_test_vectors.md section 3, or R46, R47, R57, R58 by hand) -/

theorem test_decode_nop : decode [0x00] = .ok .nop := by decide

theorem test_decode_crcClr : decode [0x01] = .ok (.crcClr) := by decide

theorem test_decode_crcUpd : decode [0x02, 0x31] = .ok (.crcUpd 0x31) := by decide

theorem test_decode_crcRd : decode [0x03] = .ok (.crcRd) := by decide

theorem test_decode_crc16 :
    decode [0x04, 0x03, 0x00, 0x00, 0x00, 0x31, 0x32, 0x33] = .ok (.crc16 [0x31, 0x32, 0x33]) := by decide

theorem test_decode_fenc :
    decode [0x10, 0xFF, 0xFF, 0x00, 0x01, 0x29, 0x02, 0x00, 0x00, 0x00, 0xC8, 0x00] = .ok (.fenc 0xFFFF 0x0100 0x29 [0xC8, 0x00]) := by decide

theorem test_decode_fdec :
    decode [0x11, 0x07, 0x00, 0x00, 0x00, 0x05, 0x00, 0x01, 0x00, 0x02, 0x00, 0x43] = .ok (.fdec [0x05, 0x00, 0x01, 0x00, 0x02, 0x00, 0x43]) := by decide

theorem test_decode_venc : decode [0x20, 0x09, 0xFF, 0x01, 0x01] = .ok (.venc 9 0xFF (.bool true)) := by decide

theorem test_decode_vdec : decode [0x21, 0xC8, 0x03, 0x00, 0x00, 0x00, 0x00] = .ok (.vdec 0xC8 3 []) := by decide

theorem test_decode_rsmFeed :
    decode [0x30, 0x03, 0x00, 0x00, 0x00, 0x68, 0x05, 0x00] = .ok (.rsmFeed [0x68, 0x05, 0x00]) := by decide

theorem test_decode_rsmRst : decode [0x31] = .ok (.rsmRst) := by decide

theorem test_decode_rsmLvl : decode [0x32] = .ok (.rsmLvl) := by decide

theorem test_decode_rdstat : decode [0x40] = .ok (.rdstat) := by decide

theorem test_decode_reset : decode [0xFF] = .ok (.reset) := by decide

theorem test_decode_vencI8 :
    decode [0x20, 0x00, 0x00, 0x00, 0x9C, 0xFF, 0xFF, 0xFF, 0xFF, 0xFF, 0xFF, 0xFF] = .ok (.vencI8 0 (num (-100))) := by decide

theorem test_decode_vencU8 :
    decode [0x20, 0x01, 0x02, 0x00, 0x88, 0x13, 0x00, 0x00, 0x00, 0x00, 0x00, 0x00] = .ok (.vencU8 2 (num 5000)) := by decide

theorem test_decode_vencI16 :
    decode [0x20, 0x02, 0xFE, 0x00, 0x6A, 0xFF, 0xFF, 0xFF, 0xFF, 0xFF, 0xFF, 0xFF] = .ok (.vencI16 0xFE (num (-150))) := by decide

theorem test_decode_vencU16 :
    decode [0x20, 0x03, 0x00, 0x00, 0x20, 0x4E, 0x00, 0x00, 0x00, 0x00, 0x00, 0x00] = .ok (.vencU16 0 (num 20000)) := by decide

theorem test_decode_vencI32 :
    decode [0x20, 0x04, 0x80, 0x00, 0x00, 0x00, 0x00, 0x00, 0x00, 0x00, 0x00, 0x80] = .ok (.vencI32 0x80 (.num 0x8000000000000000)) := by decide

theorem test_decode_vencU32 :
    decode [0x20, 0x05, 0x07, 0x00, 0x01, 0x02, 0x03, 0x04, 0x05, 0x06, 0x07, 0x08] = .ok (.vencU32 7 (.num 0x0807060504030201)) := by decide

theorem test_decode_vencBool : decode [0x20, 0x06, 0x00, 0x01, 0x00] = .ok (.vencBool 0 (.bool false)) := by decide

theorem test_decode_vencFloat :
    decode [0x20, 0x07, 0x00, 0x02, 0x00, 0x00, 0x20, 0x41] = .ok (.vencFloat 0 (.f32 0x41200000)) := by decide

theorem test_decode_vencString :
    decode [0x20, 0x08, 0x00, 0x03, 0x02, 0x00, 0x00, 0x00, 0x61, 0x62] = .ok (.vencString 0 (.str [0x61, 0x62])) := by decide

theorem test_decode_vdecI8 : decode [0x21, 0x00, 0x00, 0x01, 0x00, 0x00, 0x00, 0x80] = .ok (.vdecI8 0 [0x80]) := by decide

theorem test_decode_vdecU8 : decode [0x21, 0x01, 0x00, 0x01, 0x00, 0x00, 0x00, 0xFF] = .ok (.vdecU8 0 [0xFF]) := by decide

theorem test_decode_vdecI16 :
    decode [0x21, 0x02, 0x00, 0x02, 0x00, 0x00, 0x00, 0x6A, 0xFF] = .ok (.vdecI16 0 [0x6A, 0xFF]) := by decide

theorem test_decode_vdecU16 :
    decode [0x21, 0x03, 0x01, 0x02, 0x00, 0x00, 0x00, 0xC8, 0x00] = .ok (.vdecU16 1 [0xC8, 0x00]) := by decide

theorem test_decode_vdecI32 :
    decode [0x21, 0x04, 0xF9, 0x04, 0x00, 0x00, 0x00, 0x00, 0x00, 0x00, 0x80] = .ok (.vdecI32 0xF9 [0x00, 0x00, 0x00, 0x80]) := by decide

theorem test_decode_vdecU32 :
    decode [0x21, 0x05, 0x00, 0x03, 0x00, 0x00, 0x00, 0x01, 0x02, 0x03] = .ok (.vdecU32 0 [0x01, 0x02, 0x03]) := by decide

theorem test_decode_vdecBool :
    decode [0x21, 0x06, 0x00, 0x01, 0x00, 0x00, 0x00, 0x01] = .ok (.vdecBool 0 [0x01]) := by decide

theorem test_decode_vdecFloat :
    decode [0x21, 0x07, 0x00, 0x04, 0x00, 0x00, 0x00, 0x00, 0x00, 0x20, 0x41] = .ok (.vdecFloat 0 [0x00, 0x00, 0x20, 0x41]) := by decide

theorem test_decode_vdecString :
    decode [0x21, 0x08, 0x00, 0x03, 0x00, 0x00, 0x00, 0x61, 0x62, 0x00] = .ok (.vdecString 0 [0x61, 0x62, 0x00]) := by decide

/-- T60: the illegal packets, each with the reason the decoder names. -/
theorem test_decode_illegal :
    decode [] = .error .emptyPacket ∧ decode [0x05] = .error (.unknownOpcode 0x05) ∧
    decode [0xFE] = .error (.unknownOpcode 0xFE) ∧ decode [0x41] = .error (.unknownOpcode 0x41) ∧
    decode [0x00, 0x00] = .error .trailingBytes ∧ decode [0x02] = .error .truncated ∧
    decode [0x04, 0x02, 0x00, 0x00, 0x00, 0x31] = .error .truncated ∧
    decode [0x04, 0x00, 0x00, 0x00, 0x00, 0x31] = .error .trailingBytes ∧ decode [0x04, 0x00, 0x00] = .error .truncated ∧
    decode [0x10, 0x01, 0x00, 0x02, 0x00, 0x43] = .error .truncated ∧
    decode [0x20, 0x03, 0x00, 0x04, 0x00] = .error (.badTag 0x04) ∧
    decode [0x20, 0x06, 0x00, 0x01, 0x02] = .error (.badBool 0x02) ∧
    decode [0x20, 0x03, 0x00, 0x00, 0x00, 0x00] = .error .truncated ∧
    decode [0x21, 0x03, 0x00, 0x02, 0x00, 0x00, 0x00, 0xC8] = .error .truncated := by decide

/-! ### One command each (95_test_vectors.md sections 2 and 3) -/

/-- §3. -/
theorem test_exec_nop :
    answer .nop = some [0x00] := by decide +kernel

/-- §3, from a nonzero CRC. -/
theorem test_exec_crcClr :
    seen (exec .crcClr (blockAt 0x31C3 [0x68] 0)) = some ({ crc := 0, rbuf := [0x68], status := 0 }, some [0x00]) := by decide +kernel

/-- T12, T13. -/
theorem test_exec_crcUpd :
    seen (exec (.crcUpd 0x00) (blockAt 0x31C3 [] 0)) = some ({ crc := 0xE572, rbuf := [], status := 0 }, some [0x00]) := by decide +kernel

/-- §3: low byte first, not cleared. -/
theorem test_exec_crcRd :
    seen (exec .crcRd (blockAt 0x2672 [] 0)) = some ({ crc := 0x2672, rbuf := [], status := 0 }, some [0x00, 0x72, 0x26]) := by decide +kernel

/-- T14. -/
theorem test_exec_crc16 :
    seen (exec (.crc16 [0x41]) (blockAt 0x31C3 [] 0)) = some ({ crc := 0x58E5, rbuf := [], status := 0 }, some [0x00, 0xE5, 0x58]) := by decide +kernel

/-- T20, T21: F3. -/
theorem test_exec_fenc :
    answer (.fenc 0xFFFF 0x0100 0x29 [0xC8, 0x00]) =
      some [0x00, 0x0D, 0x00, 0x00, 0x00, 0x68, 0x07, 0x00, 0xFF, 0xFF, 0x00, 0x01, 0x29, 0xC8, 0x00, 0xB1, 0x7B, 0x16] := by decide +kernel

/-- T23: the length field is not checked. -/
theorem test_exec_fdec :
    answer (.fdec [0xFF, 0xFF, 0x34, 0x12, 0x78, 0x56, 0xAB, 0x01, 0x02]) =
      some [0x00, 0x34, 0x12, 0x78, 0x56, 0xAB, 0x02, 0x00, 0x00, 0x00, 0x01, 0x02] := by decide +kernel

/-- T31: unknown type. -/
theorem test_exec_venc :
    answer (.venc 255 0 (.str [])) = some [0x01] := by decide +kernel

/-- T36: unknown type. -/
theorem test_exec_vdec :
    answer (.vdec 200 3 []) = some [0x02] := by decide +kernel

/-- T47, T44, T49, T55 (parameters with RBUF unbounded). -/
theorem test_exec_rsmFeed :
    feedEnding (par .plus .halfEven) (blockAt 0x1234 [0x68, 0x05] 0).block
      [0x00, 0x01, 0x00, 0x02, 0x00, 0x43, 0xC5, 0x31, 0x16, 0x68, 0x00, 0x00, 0x00, 0x00, 0x16] = .raise .shortLength ∧
    feedEnding (par .plus .halfEven) Block.reset
        [0x68, 0x0B, 0x00, 0x01, 0x00, 0x02, 0x00, 0x43, 0x35, 0x12, 0x01, 0x00, 0x07, 0x00, 0x59, 0x68, 0x16] =
      .ok (Block.reset.setRbuf [0x68, 0x16]) (.frames []) ∧
    feedEnding (par .plus .halfEven) Block.reset ([0x00, 0xFF] ++ f1 ++ [0x16, 0x68, 0x0B, 0x00, 0x01]) =
      .ok (Block.reset.setRbuf [0x68, 0x0B, 0x00, 0x01]) (.frames [{ dest := 1, src := 2, func := 0x43, payload := [] }]) := by decide +kernel

/-- T53. -/
theorem test_exec_rsmRst :
    seen (exec .rsmRst (blockAt 0x58E5 [0x68, 0x0B] 0)) = some ({ crc := 0x58E5, rbuf := [], status := 0 }, some [0x00]) := by decide +kernel

/-- §3. -/
theorem test_exec_rsmLvl :
    seen (exec .rsmLvl (blockAt 0 [0x68, 0x05, 0x00] 0)) =
      some ({ crc := 0, rbuf := [0x68, 0x05, 0x00], status := 0 }, some [0x00, 0x03, 0x00, 0x00, 0x00]) := by decide +kernel

/-- T61. -/
theorem test_exec_rdstat :
    seen (exec .rdstat (blockAt 0 [] 0x81)) = some ({ crc := 0, rbuf := [], status := 0x81 }, some [0x00, 0x81]) := by decide +kernel

/-- P4 step 9. -/
theorem test_exec_reset :
    seen (exec .reset (blockAt 0x58E5 [0x68, 0x05] 0x81)) = some ({ crc := 0, rbuf := [], status := 0 }, some [0x00]) := by decide +kernel

/-- T30. -/
theorem test_exec_vencI8 :
    answer (.vencI8 0 (num (-12800))) = some [0x00, 0x01, 0x00, 0x00, 0x00, 0x80] ∧ answer (.vencI8 0 (num 12800)) = some [0x01] := by decide +kernel

/-- T30. -/
theorem test_exec_vencU8 :
    answer (.vencU8 0 (num 25500)) = some [0x00, 0x01, 0x00, 0x00, 0x00, 0xFF] ∧ answer (.vencU8 0 (num (-100))) = some [0x01] := by decide +kernel

/-- T30. -/
theorem test_exec_vencI16 :
    answer (.vencI16 0 (num (-100))) = some [0x00, 0x02, 0x00, 0x00, 0x00, 0xFF, 0xFF] ∧
    answer (.vencI16 0 (num 3276800)) = some [0x01] := by decide +kernel

/-- T30, T31. -/
theorem test_exec_vencU16 :
    answer (.vencU16 0 (num 20000)) = some [0x00, 0x02, 0x00, 0x00, 0x00, 0xC8, 0x00] ∧
    answer (.vencU16 0 (num 20050)) = some [0x01] ∧ answer (.vencU16 8 (num 100)) = some [0x06] ∧
    answer (.vencU16 8 (.bool true)) = some [0x01] := by decide +kernel

/-- T30. -/
theorem test_exec_vencI32 :
    answer (.vencI32 0 (num (-214748364800))) = some [0x00, 0x04, 0x00, 0x00, 0x00, 0x00, 0x00, 0x00, 0x80] ∧
    answer (.vencI32 0 (num 214748364800)) = some [0x01] := by decide +kernel

/-- T30. -/
theorem test_exec_vencU32 :
    answer (.vencU32 0 (num 429496729500)) = some [0x00, 0x04, 0x00, 0x00, 0x00, 0xFF, 0xFF, 0xFF, 0xFF] ∧
    answer (.vencU32 0 (num (-100))) = some [0x01] := by decide +kernel

/-- T32. -/
theorem test_exec_vencBool :
    answer (.vencBool 0 (.bool true)) = some [0x00, 0x01, 0x00, 0x00, 0x00, 0x01] ∧
    answer (.vencBool 0xFF (.bool false)) = some [0x06] := by decide +kernel

/-- T32. -/
theorem test_exec_vencFloat :
    answer (.vencFloat 100 (.f32 0x7FC00000)) = some [0x00, 0x04, 0x00, 0x00, 0x00, 0x00, 0x00, 0xC0, 0x7F] := by decide +kernel

/-- T32. -/
theorem test_exec_vencString :
    answer (.vencString 0 (.str [0x61, 0x00, 0x62])) =
      some [0x00, 0x04, 0x00, 0x00, 0x00, 0x61, 0x00, 0x62, 0x00] := by decide +kernel

/-- T34: -128.00 is c = -12800. -/
theorem test_exec_vdecI8 :
    answer (.vdecI8 0 [0x80]) = some [0x00, 0x00, 0x00, 0xCE, 0xFF, 0xFF, 0xFF, 0xFF, 0xFF, 0xFF] := by decide +kernel

/-- T34: 128.00 is c = 12800. -/
theorem test_exec_vdecU8 :
    answer (.vdecU8 0 [0x80]) = some [0x00, 0x00, 0x00, 0x32, 0x00, 0x00, 0x00, 0x00, 0x00, 0x00] := by decide +kernel

/-- §3. -/
theorem test_exec_vdecI16 :
    answer (.vdecI16 0 [0x6A, 0xFF]) = some [0x00, 0x00, 0x68, 0xC5, 0xFF, 0xFF, 0xFF, 0xFF, 0xFF, 0xFF] := by decide +kernel

/-- P3 step 6, T36. -/
theorem test_exec_vdecU16 :
    answer (.vdecU16 0 [0x34, 0x12]) = some [0x00, 0x00, 0x50, 0x1C, 0x07, 0x00, 0x00, 0x00, 0x00, 0x00] ∧
    answer (.vdecU16 8 [0xC8]) = some [0x02] ∧ answer (.vdecU16 8 [0xC8, 0x00]) = some [0x06] := by decide +kernel

/-- T34: -1000.00 is c = -100000. -/
theorem test_exec_vdecI32 :
    answer (.vdecI32 0 [0x18, 0xFC, 0xFF, 0xFF]) =
      some [0x00, 0x00, 0x60, 0x79, 0xFE, 0xFF, 0xFF, 0xFF, 0xFF, 0xFF] := by decide +kernel

/-- T34: 4294967295.00 is c = 429496729500. -/
theorem test_exec_vdecU32 :
    answer (.vdecU32 0 [0xFF, 0xFF, 0xFF, 0xFF]) =
      some [0x00, 0x00, 0x9C, 0xFF, 0xFF, 0xFF, 0x63, 0x00, 0x00, 0x00] := by decide +kernel

/-- T36. -/
theorem test_exec_vdecBool :
    answer (.vdecBool 0 [0x02]) = some [0x00, 0x01, 0x01] ∧ answer (.vdecBool 2 []) = some [0x02] ∧
    answer (.vdecBool 2 [0x01]) = some [0x06] := by decide +kernel

/-- T2. -/
theorem test_exec_vdecFloat :
    answer (.vdecFloat 0 [0x00, 0x00, 0x20, 0x41]) = some [0x00, 0x02, 0x00, 0x00, 0x20, 0x41] ∧
    answer (.vdecFloat 8 [0x00, 0x00, 0x20, 0x41]) = some [0x06] := by decide +kernel

/-- T36. -/
theorem test_exec_vdecString :
    answer (.vdecString 0 [0x61, 0x62, 0x00, 0x63, 0x64]) = some [0x00, 0x03, 0x02, 0x00, 0x00, 0x00, 0x61, 0x62] := by decide +kernel

/-! ### Shared operations under each parameter setting -/

/-- T10. -/
theorem test_crc_step : crcStep 0x1234 0x56 = 0x3C40 ∧ crcStep 0xFFFF 0x00 = 0xE1F0 ∧ crcStep 0x8000 0x00 = 0x9188 := by
  decide +kernel

/-- T33: ties both ways, both signs. -/
theorem test_venc_scaled :
    vencIntType (par .plus .halfEven) .i16 0xFF (num (-2005)) = .ok [0x38, 0xFF] ∧
    vencIntType (par .plus .halfAway) .i16 0xFF (num (-2005)) = .ok [0x37, 0xFF] ∧
    vencIntType (par .minus .halfEven) .u8 0xFE (num 5000) = .ok [0x00] ∧
    vencIntType (par .minus .halfAway) .u8 0xFE (num 5000) = .ok [0x01] ∧
    vencIntType (par .minus .halfAway) .u16 1 (num (-5)) = .error .encodeError ∧
    vencIntType (par .plus .halfEven) .i32 0xF9 (.num 0x7FFFFFFFFFFFFFFF) = .error .encodeError := by decide +kernel

/-- T35: ties both ways, both signs, and the largest result. -/
theorem test_vdec_scaled :
    vdecIntType (par .plus .halfEven) .i32 0xFD [0x23, 0xFB, 0xFF, 0xFF] = .ok (num (-124)) ∧
    vdecIntType (par .plus .halfAway) .i32 0xFD [0x23, 0xFB, 0xFF, 0xFF] = .ok (num (-125)) ∧
    vdecIntType (par .minus .halfAway) .i8 4 [0xCE] = .ok (num (-1)) ∧
    vdecIntType (par .minus .halfEven) .u16 1 [0xC8, 0x00] = .ok (num 2000) ∧
    vdecIntType (par .plus .halfEven) .u32 7 [0xFF, 0xFF, 0xFF, 0xFF] = .ok (num 4294967295000000000) := by decide +kernel

/-- R118: FLOAT_SCALE present, applied to the pattern and k; absent, Refused (T36). -/
theorem test_vdec_float_scaled :
    vdecFloat parScale 1 [0x00, 0x00, 0x20, 0x41] = .ok (.f32 0x411FFFFF) ∧
    vdecFloat (par .plus .halfEven) 1 [0x00, 0x00, 0x20, 0x41] = .error .refused := by decide +kernel

/-- R91: a bounded RBUF refuses a feed that passes it, and only that. -/
theorem test_capacity :
    overflows parCap 65541 = false ∧ overflows parCap 65542 = true := by decide

/-- R20: the three phases. -/
theorem test_phase : phase [] = .seekStart ∧ phase [0x68, 0x05] = .seekStart ∧ phase [0x68, 0x05, 0x00] = .haveHeader ∧
    phase f1 = .haveFrame := by decide

/-! ### The step -/

/-- T62: while faulted, an illegal packet answers 04, CRC.RD answers 80 01, NOP answers 00. -/
theorem test_step_faulted :
    seen (step { (blockAt 0 [] 0x81) with inbox := [.command [0x05]] }) =
      some ({ crc := 0, rbuf := [], status := 0x81 }, some [0x04]) ∧
    seen (step { (blockAt 0 [] 0x81) with inbox := [.command [0x03]] }) =
      some ({ crc := 0, rbuf := [], status := 0x81 }, some [0x80, 0x01]) ∧
    seen (step { (blockAt 0 [] 0x81) with inbox := [.command [0x00]] }) =
      some ({ crc := 0, rbuf := [], status := 0x81 }, some [0x00]) := by decide

/-- R160: the platform's reset gives no response and takes no command from the port. -/
theorem test_step_platform_reset :
    after (step { (blockAt 0x31C3 [0x68] 0x81) with inbox := [.platformReset, .command [0x00]] }) =
      some { (blockAt 0 [] 0) with inbox := [.command [0x00]] } := by decide

/-- A row's word is the first command after reset (R67: byte 0 the most significant of the k bytes). -/
theorem test_fetch_word :
    seen (step (State.reset.withFetchWord 16 0x2102)) = some (Block.reset, some [0x02]) ∧
    decodeTableWord 8 0x10 = some (.fenc 0 0 0 []) ∧ decodeTableWord 16 0x2007 = some (.vencFloat 0 (num 0)) ∧
    decodeTableWord 8 0x05 = none := by decide

/-! ### Text (R64, R66) -/

/-- T31 and section 3 of 95_test_vectors.md write these lines. -/
theorem test_text :
    instrText (.vencI16 0xFE (num (-150))) = "VENC I16, exp=-2, NUM -1.50" ∧
    instrText (.fenc 1 2 0x43 [0xAA, 0xBB]) = "FENC dest=0x0001, src=0x0002, func=0x43, payload=[AA BB]" ∧
    instrText (.vencFloat 0 (.f32 0x41200000)) = "VENC FLOAT, exp=0, F32 0x41200000" ∧
    instrText (.crc16 []) = "CRC16 []" := by decide +kernel

/-- R66: the pseudo-commands' expansions. -/
theorem test_pseudo : Pseudo.expand (.crcStream [0x31]) = [.crcClr, .crcUpd 0x31, .crcRd] ∧
    Pseudo.expand (.vencWord 1 (num 2000)) = [.vencU16 1 (num 2000)] ∧ Pseudo.expand .xferBegin = [.rsmRst] := by decide

/-! ### Witnesses: the hypotheses of the statements can be met -/

/-- PlatformResetActsAsReset: a state whose next event is the platform's reset, and one with nothing presented. -/
theorem witness_PlatformResetActsAsReset :
    ({ (blockAt 0x31C3 [0x68] 0x81) with inbox := [.platformReset] } : State).inbox = .platformReset :: [] ∧
    (blockAt 0x31C3 [0x68] 0x81).inbox = [] := ⟨rfl, rfl⟩

/-- RdstatReturnsStatus: both legal values. -/
theorem witness_RdstatReturnsStatus :
    statusLegal (blockAt 0 [] 0x00).block.status = true ∧ statusLegal (blockAt 0 [] 0x81).block.status = true := by decide

/-- FaultedBlockAnswersOnlyItsCause: a faulted block, a command it turns away, one it runs, and RESET. -/
theorem witness_FaultedBlockAnswersOnlyItsCause :
    (blockAt 0x58E5 [0x68, 0x05] 0x81).block.faulted = true ∧ answersWhenFaulted .crcRd = false ∧
    (∃ t, exec .nop (blockAt 0x58E5 [0x68, 0x05] 0x81) = .next t ∧ t.block.faulted = true) ∧
    ∃ t, exec .reset (blockAt 0x58E5 [0x68, 0x05] 0x81) = .next t ∧ t.block.faulted = false :=
  ⟨rfl, rfl, ⟨_, rfl, rfl⟩, _, rfl, rfl⟩

/-- CommandsWriteOnlyTheirState: RSM.RST writes neither CRC nor STATUS, CRC.UPD writes neither RBUF nor STATUS. -/
theorem witness_CommandsWriteOnlyTheirState :
    (∃ t, exec .rsmRst (blockAt 1 [0x68] 0) = .next t) ∧ writesCrc .rsmRst = false ∧ writesStatus .rsmRst = false ∧
    (∃ t, exec (.crcUpd 1) (blockAt 1 [0x68] 0) = .next t) ∧ writesRbuf (.crcUpd 1) = false ∧
    writesStatus (.crcUpd 1) = false := ⟨⟨_, rfl⟩, rfl, rfl, ⟨_, rfl⟩, rfl, rfl⟩

/-- CrcReachesOnlyItsReaders, RbufReachesOnlyItsReaders: a running block, a command that does not read the piece of state, and
one that writes it all the same. -/
theorem witness_ReachesOnlyItsReaders :
    (blockAt 1 [0x68] 0).running ∧
    readsCrc (.crc16 []) = false ∧ writesCrc (.crc16 []) = true ∧ (∃ t, exec (.crc16 []) (blockAt 1 [0x68] 0) = .next t) ∧
    readsRbuf .rsmRst = false ∧ writesRbuf .rsmRst = true ∧ ∃ t, exec .rsmRst (blockAt 1 [0x68] 0) = .next t :=
  ⟨rfl, rfl, rfl, ⟨_, rfl⟩, rfl, rfl, _, rfl⟩

/-- StepRunsTheDecodedCommand, EncodeOfDecodeIsThePacket: a presented packet that decodes. -/
theorem witness_StepRunsTheDecodedCommand :
    (State.reset.present [0x02, 0x31]).inbox = .command [0x02, 0x31] :: [] ∧ decode [0x02, 0x31] = .ok (.crcUpd 0x31) :=
  ⟨rfl, by decide⟩

/-- IllegalPacketAnsweredIllegalCommand: the empty packet, an opcode outside R46, a packet one byte short. -/
theorem witness_IllegalPacketAnsweredIllegalCommand :
    (State.reset.present []).inbox = .command [] :: [] ∧ packetWellFormed [] = false ∧ packetWellFormed [0x41] = false ∧
    packetWellFormed [0x04, 0x02, 0x00, 0x00, 0x00, 0x31] = false := ⟨rfl, by decide, by decide, by decide⟩

/-- DecodesExactlyWellFormedPackets: both sides hold of one packet and fail of another. -/
theorem witness_DecodesExactlyWellFormedPackets :
    packetWellFormed [0x04, 0x01, 0x00, 0x00, 0x00, 0x31] = true ∧ packetWellFormed [0x20, 0x06, 0x00, 0x01, 0x02] = false := by
  decide

/-- StepsFoldTheCommands, DecodeOfEncodeIsTheCommand: well-formed commands and a state with nothing presented. -/
theorem witness_StepsFoldTheCommands :
    (∀ i ∈ ([.crcClr, .crcUpd 0x31, .venc 9 0 (.str []), .crcRd] : List Instr), i.wellFormed = true) ∧
    State.reset.inbox = [] := ⟨by decide, rfl⟩

/-- BurstOfSixteenBitsChangesCrc: a burst, both ends of the offset, two different bytes. -/
theorem witness_BurstOfSixteenBitsChangesCrc :
    (0x8001 : BitVec 16) ≠ 0 ∧ (0 : Nat) ≤ 8 ∧ (8 : Nat) ≤ 8 ∧ (0x34 : Byte) ≠ 0x35 := by decide

/-- The statements about a running block: a block that holds something and is not faulted. -/
theorem witness_running : (blockAt 0x1234 [0x68, 0x05] 0x00).running ∧ State.reset.running := ⟨rfl, rfl⟩

/-- Crc16Result, FdecResult, RsmLvlResult, CountFieldIsLittleEndian: counts at both ends of the field, and bodies on both sides
of 7 bytes. -/
theorem witness_counts :
    ([0x31, 0x32] : Bytes).length < 2 ^ 32 ∧ (0 : Nat) < 2 ^ 32 ∧ (2 ^ 32 - 1 : Nat) < 2 ^ 32 ∧
    ([5, 0, 1, 0, 2, 0] : Bytes).length < 7 ∧ ¬([5, 0, 1, 0, 2, 0, 0x43] : Bytes).length < 7 := by decide

/-- CrcStreamingEqualsOneShot: the commands of its last clause. -/
theorem witness_CrcStreamingEqualsOneShot :
    (∃ dest src func payload, Instr.fenc 1 2 0x43 [] = .fenc dest src func payload) ∧
    ∃ chunk, Instr.rsmFeed f1 = .rsmFeed chunk := ⟨⟨_, _, _, _, rfl⟩, _, rfl⟩

/-- FencResult, FencLayout, FencStructureAndInjectivity, FrameRoundTrip: the longest payload and one byte more. -/
theorem witness_payloads (b : Byte) :
    (List.replicate 65530 b).length ≤ 65530 ∧ 65530 < (List.replicate 65531 b).length ∧
    (List.replicate 65531 b).length < 2 ^ 32 := by
  simp only [List.length_replicate]; decide

/-- FencStructureAndInjectivity: two equal frames. -/
theorem witness_FencStructureAndInjectivity : ([] : Bytes).length ≤ 65530 ∧ fenc 1 2 0x43 [] = fenc 1 2 0x43 [] := by decide +kernel

/-- FrameRoundTrip, SmallestShortFrameFaults: a running block with an empty RBUF and a legal STATUS. -/
theorem witness_empty_rbuf :
    (blockAt 0x1234 [] 0).running ∧ (blockAt 0x1234 [] 0).block.rbuf = [] ∧
    statusLegal (blockAt 0x1234 [] 0).block.status = true := ⟨rfl, rfl, rfl⟩

/-- RndIsNearestWithTieRule, RndIsSymmetric: a tie of each sign under each rule. -/
theorem witness_ties :
    (0 : Int) < 10 ∧ 2 * ((5 : Int) - 10 * rnd 5 10 .halfEven) = 10 ∧ 2 * ((5 : Int) - 10 * rnd 5 10 .halfAway) = -10 ∧
    2 * ((-5 : Int) - 10 * rnd (-5) 10 .halfEven) = -10 ∧ 2 * ((-5 : Int) - 10 * rnd (-5) 10 .halfAway) = 10 := by decide

/-- ScalingIsExactOrNearest: each clause at its boundary, under each sign. -/
theorem witness_ScalingIsExactOrNearest :
    scaleK (par .plus .halfEven) (-2) = -2 ∧ scaleK (par .minus .halfEven) 1 = -1 ∧
    scaleK (par .minus .halfEven) 2 = -2 ∧ scaleK (par .plus .halfEven) (-3) = -3 ∧ (-2 : Int) ≠ 0 := by decide

/-- DecodedNumbersFitSixtyFourBits: both ends of the exponent with just enough bytes. -/
theorem witness_DecodedNumbersFitSixtyFourBits :
    (-7 : Int) ≤ -7 ∧ (7 : Int) ≤ 7 ∧ IntType.u32.width ≤ ([0xFF, 0xFF, 0xFF, 0xFF] : Bytes).length := by decide

/-- The VENC results: a value of another kind for every declared type. -/
theorem witness_kinds :
    (∀ c, Value.bool true ≠ .num c) ∧ (∀ t, Value.num 0 ≠ .bool t) ∧ (∀ p, Value.str [] ≠ .f32 p) ∧
    ∀ text, Value.f32 0 ≠ .str text := by
  refine ⟨?_, ?_, ?_, ?_⟩ <;> intro x h <;> cases h

/-- VencStringResult, VdecStringResult, GeneralRowAgreesWithTypedRow, ValueRoundTrips: a text without 0x00 that is short
enough. -/
theorem witness_texts :
    (0x00 : Byte) ∉ ([0xC3, 0xA9] : Bytes) ∧ ([0xC3, 0xA9] : Bytes).length + 1 < 2 ^ 32 := by decide

/-- UnknownTypeIsAnError: the least and the greatest unknown type code. -/
theorem witness_UnknownTypeIsAnError : 9 ≤ (9 : Byte).toNat ∧ 9 ≤ (255 : Byte).toNat ∧ State.reset.running :=
  ⟨by decide, by decide, rfl⟩

/-- ValueRoundTrips, first clause: an encode that succeeds at exp = 0, at k = -2, at k = -3 and at k = -1. -/
theorem witness_ValueRoundTrips_encode :
    vencIntType (par .plus .halfEven) .i16 0 (num (-100)) = .ok [0xFF, 0xFF] ∧
    vencIntType (par .plus .halfEven) .i16 0xFE (num (-150)) = .ok [0x6A, 0xFF] ∧
    vencIntType (par .minus .halfEven) .u16 3 (num 2000) = .ok [0x20, 0x4E] ∧
    vencIntType (par .minus .halfEven) .u16 1 (num 2000) = .ok [0xC8, 0x00] := by decide +kernel

/-- ValueRoundTrips, second clause: data of the width, an admitted exponent, k at its boundary -2. -/
theorem witness_ValueRoundTrips_decode :
    ([0xC8, 0x00] : Bytes).length = IntType.u16.width ∧ -7 ≤ (0xFE : Byte).toInt ∧ (0xFE : Byte).toInt ≤ 7 ∧
    -2 ≤ (if (par .plus .halfEven).scaleSign = .plus then (0xFE : Byte).toInt else -(0xFE : Byte).toInt) := by decide

/-- ParseFollowsTheSevenSteps, FrameBehindNoiseIsExtracted: noise without a start byte. -/
theorem witness_noise : (0x68 : Byte) ∉ ([0x00, 0xFF, 0x16, 0xAA] : Bytes) ∧ (0x68 : Byte) ∉ ([] : Bytes) := by decide

/-- ChunkingDoesNotMatter: parameters with an unbounded RBUF. -/
theorem witness_ChunkingDoesNotMatter : (par .plus .halfAway).rbufCap = none := rfl

/-- CorruptedFrameIsRejected: the first byte after the length field and the stop byte of F1, changed. -/
theorem witness_CorruptedFrameIsRejected :
    ([] : Bytes).length ≤ 65530 ∧ (3 : Nat) ≤ 3 ∧ 10 < ([] : Bytes).length + 11 ∧
    (0x02 : Byte) ≠ (fenc 1 2 0x43 []).getD 3 0 ∧ (0x17 : Byte) ≠ (fenc 1 2 0x43 []).getD 10 0 := by decide +kernel

/-- SettledBufferHoldsNoWholeFrame: a settled buffer at each boundary, and a parse that ends. -/
theorem witness_SettledBufferHoldsNoWholeFrame :
    rbufSettled [] = true ∧ rbufSettled [0x68, 0x05] = true ∧
    rbufSettled [0x68, 0x05, 0x00, 0x01, 0x00, 0x02, 0x00, 0x43, 0xC5, 0x31] = true ∧
    parseStream [0x00, 0x68] = .done [0x68] [] := by decide +kernel

/-- EveryStepKeepsTheBlockInvariant: a faulted block with a held prefix, about to be reset by command. -/
theorem witness_EveryStepKeepsTheBlockInvariant :
    ({ (blockAt 0x58E5 [0x68, 0x05] 0x81) with inbox := [.command [0xFF]] } : State).block.Inv ∧
    ∃ t, step { (blockAt 0x58E5 [0x68, 0x05] 0x81) with inbox := [.command [0xFF]] } = .next t := by
  refine ⟨⟨rfl, ?_, rfl⟩, _, rfl⟩
  unfold overflows
  cases h : Config.params.rbufCap with
  | none => rfl
  | some cap =>
    have := cap.atLeast
    exact decide_eq_false (by show ¬ cap.bytes < 2; omega)

end Sys2Proof.Tests
end

section
/-! SUPPORT. What a command may write, said once for all commands, and the buffers that a parse leaves; with them the
statements about the block's state (10_state.md). -/

namespace Sys2Proof.Machine

/-! ### The writers of each piece of state (R11, R12, R13) -/

/-- What command `i` may make of block `b`: nothing, or a write of one piece of state it is a writer of, or everything. -/
def MayWrite (i : Instr) (b b' : Block) : Prop :=
  b' = b ∨ (writesCrc i = true ∧ ∃ c, b' = b.setCrc c) ∨ (writesRbuf i = true ∧ ∃ r, b' = b.setRbuf r) ∨
    (writesStatus i = true ∧ ∃ c, b' = b.raiseFault c) ∨ (i = .reset ∧ b' = b.restart)

/-- Leaving the block as it was is open to every command. -/
theorem MayWrite.of_eq {i : Instr} {b b' : Block} (h : b' = b) : MayWrite i b b' := .inl h

/-- A piece of state that a command is no writer of stays as it was. -/
theorem MayWrite.frame {i : Instr} {b b' : Block} (h : MayWrite i b b') :
    (writesCrc i = false → b'.crc = b.crc) ∧ (writesRbuf i = false → b'.rbuf = b.rbuf) ∧
    (writesStatus i = false → b'.status = b.status) := by
  obtain rfl | ⟨hw, c, rfl⟩ | ⟨hw, r, rfl⟩ | ⟨hw, c, rfl⟩ | ⟨rfl, rfl⟩ := h
  · simp
  · simp [hw]
  · simp [hw]
  · simp [hw]
  · simp [writesCrc, writesRbuf, writesStatus]

/-- A VENC leaves the block as it was. -/
theorem finish_vencEnding_block (s : State) (x : Except Error Bytes) : (s.finish (vencEnding s x)).block = s.block := by
  obtain ⟨d, -, h⟩ | ⟨e, -, h⟩ := vencEnding_cases s x <;> rw [h] <;> rfl

/-- A VDEC leaves the block as it was. -/
theorem finish_vdecEnding_block (s : State) (x : Except Error Value) : (s.finish (vdecEnding s x)).block = s.block := by
  obtain ⟨v, -, h⟩ | ⟨e, -, h⟩ := vdecEnding_cases s x <;> rw [h] <;> rfl

/-- A feed is refused and writes nothing, or leaves a new RBUF, or takes the fault. -/
theorem finish_feedEnding_mayWrite (chunk : Bytes) (s : State) :
    MayWrite (.rsmFeed chunk) s.block (s.finish (feedEnding Config.params s.block chunk)).block := by
  obtain ⟨-, h⟩ | ⟨-, ⟨rest, frames, -, h⟩ | ⟨-, h⟩⟩ := feedEnding_cases Config.params s.block chunk <;> rw [h]
  · exact .of_eq rfl
  · exact .inr (.inr (.inl ⟨rfl, rest, rfl⟩))
  · exact .inr (.inr (.inr (.inl ⟨rfl, .shortLength, rfl⟩)))

/-- Finishing with a command's own ending writes only what the command may write. -/
theorem finish_endingOf_mayWrite (i : Instr) (s : State) : MayWrite i s.block (s.finish (endingOf i s)).block := by
  cases i with
  | nop | crcRd | rsmLvl | rdstat => exact .of_eq rfl
  | crcClr | crcUpd | crc16 => exact .inr (.inl ⟨rfl, _, rfl⟩)
  | fenc | fdec => refine .of_eq ?_; simp only [endingOf]; split <;> rfl
  | rsmFeed chunk => exact finish_feedEnding_mayWrite chunk s
  | rsmRst => exact .inr (.inr (.inl ⟨rfl, [], rfl⟩))
  | reset => exact .inr (.inr (.inr (.inr ⟨rfl, rfl⟩)))
  | venc | vencI8 | vencU8 | vencI16 | vencU16 | vencI32 | vencU32 | vencBool | vencFloat | vencString =>
    exact .of_eq (by simp only [endingOf, finish_vencEnding_block])
  | vdec | vdecI8 | vdecU8 | vdecI16 | vdecU16 | vdecI32 | vdecU32 | vdecBool | vdecFloat | vdecString =>
    exact .of_eq (by simp only [endingOf, finish_vdecEnding_block])

/-- A command writes only what it may write; on a faulted block it may write less. -/
theorem exec_mayWrite {i : Instr} {s t : State} (h : exec i s = .next t) : MayWrite i s.block t.block := by
  rw [exec_eq] at h
  cases h
  split
  · exact .of_eq rfl
  · exact finish_endingOf_mayWrite i s

/-- Settles O9, by the frame of `MayWrite`, which every command keeps to. -/
theorem commandsWriteOnlyTheirState : Obligations.CommandsWriteOnlyTheirState :=
  fun _ _ _ h => (exec_mayWrite h).frame

/-! ### The buffers that a parse leaves (R20, R62, R99 a) -/

/-- The length field has two bytes. -/
theorem lengthField_lt (buf : Bytes) : lengthField buf < 65536 := by
  have hlen : (slice buf 1 3).length ≤ 2 := List.length_take_le _ _
  calc lengthField buf < 256 ^ (slice buf 1 3).length := unLE_lt _
    _ ≤ 256 ^ 2 := Nat.pow_le_pow_right (by decide) hlen

/-- A settled buffer is empty, or begins with a start byte and lacks bytes of its own frame. -/
theorem rbufSettled_iff (buf : Bytes) :
    rbufSettled buf = true ↔
      buf = [] ∨ (buf.head? = some startByte ∧ (buf.length < 3 ∨ buf.length < lengthField buf + 6)) := by
  simp [rbufSettled, startByte]

/-- HAVE_FRAME is a start byte, a length field, and all the bytes that it implies. -/
theorem phase_eq_haveFrame_iff (buf : Bytes) :
    phase buf = .haveFrame ↔ buf.head? = some startByte ∧ 3 ≤ buf.length ∧ lengthField buf + 6 ≤ buf.length := by
  unfold phase
  split_ifs with hstart hshort <;> grind

/-- The longest frame has 65541 bytes, and a settled buffer lacks at least one of them (R62). -/
theorem settled_length_lt {buf : Bytes} (h : rbufSettled buf = true) : buf.length < 65541 := by
  have := lengthField_lt buf
  obtain rfl | ⟨-, hlen⟩ := (rbufSettled_iff buf).mp h
  · decide
  · omega

/-- A settled buffer holds no whole frame. -/
theorem settled_phase_ne_haveFrame {buf : Bytes} (h : rbufSettled buf = true) : phase buf ≠ .haveFrame := by
  intro hphase
  obtain ⟨hhead, h3, hL⟩ := (phase_eq_haveFrame_iff buf).mp hphase
  obtain rfl | ⟨-, hlen⟩ := (rbufSettled_iff buf).mp h
  · cases hhead
  · omega

/-- A pass that waits leaves what stands behind the noise, and that is settled. -/
theorem onePass_exit {buf rest : Bytes} (h : onePass buf = .exit rest) :
    rbufSettled rest = true ∧ rest <:+ buf := by
  obtain ⟨hexam, hlen⟩ | ⟨-, -, ⟨-, -, hexam⟩ | ⟨-, -, hexam⟩ | ⟨-, hexam⟩⟩ := examine_cases (seekStart buf) <;>
    rw [onePass, hexam] at h <;> cases h
  obtain ⟨gone, hgone⟩ := seekStart_suffix buf
  refine ⟨(rbufSettled_iff _).mpr ?_, gone, hgone.symm⟩
  obtain hnil | ⟨t, ht⟩ := seekStart_head buf
  · exact .inl hnil
  · exact .inr ⟨by rw [ht]; rfl, hlen⟩

/-- A frame in front does not change the buffer that a parse leaves. -/
theorem cons_eq_done {f : Frame} {p : Parse} {rest : Bytes} {frames : List Frame} (h : p.cons f = .done rest frames) :
    ∃ more, p = .done rest more := by
  cases p with
  | done => cases h; exact ⟨_, rfl⟩
  | shortLength => cases h

/-- A parse that ends without the fault waits in its first pass, or leaves what the parse of a shorter suffix leaves. -/
theorem parseStream_done_cases {buf rest : Bytes} {frames : List Frame} (h : parseStream buf = .done rest frames) :
    onePass buf = .exit rest ∨
      ∃ mid more, mid.length < buf.length ∧ mid <:+ buf ∧ parseStream mid = .done rest more := by
  obtain ⟨haccept, hreject⟩ := pass_shortens buf
  rw [parseStream_eq] at h
  cases hp : onePass buf with
  | exit left => rw [hp] at h; cases h; exact .inl rfl
  | accept f mid =>
    rw [hp] at h
    obtain ⟨more, hmore⟩ := cons_eq_done h
    obtain ⟨hlt, gone, hgone⟩ := haccept f mid hp
    exact .inr ⟨mid, more, hlt, ⟨gone, hgone.symm⟩, hmore⟩
  | reject mid =>
    rw [hp] at h
    obtain ⟨hlt, gone, hgone⟩ := hreject mid hp
    exact .inr ⟨mid, frames, hlt, ⟨gone, hgone.symm⟩, h⟩
  | shortLength => rw [hp] at h; cases h

/-- A parse that ends leaves a settled suffix of its buffer, by induction on the buffer's length: the last pass waits, and
each pass before it only shortens the buffer to a suffix. -/
theorem parseStream_done {buf rest : Bytes} {frames : List Frame} (h : parseStream buf = .done rest frames) :
    rbufSettled rest = true ∧ rest <:+ buf := by
  obtain hexit | ⟨mid, more, hlt, hmid, hparse⟩ := parseStream_done_cases h
  · exact onePass_exit hexit
  · obtain ⟨hsettled, hsuffix⟩ := parseStream_done hparse
    exact ⟨hsettled, hsuffix.trans hmid⟩
termination_by buf.length

/-- Settles O55, from what a settled buffer lacks and from the induction over the passes of a parse. -/
theorem settledBufferHoldsNoWholeFrame : Obligations.SettledBufferHoldsNoWholeFrame := by
  refine ⟨fun buf h => ⟨settled_length_lt h, settled_phase_ne_haveFrame h⟩, fun buf rest frames h => ?_⟩
  obtain ⟨hsettled, gone, hgone⟩ := parseStream_done h
  exact ⟨hsettled, gone, hgone.symm⟩

/-! ### The reset values (R24) -/

/-- Settles O1: each value is read off the reset state. -/
theorem resetLeavesTheStatedValues : Obligations.ResetLeavesTheStatedValues :=
  ⟨rfl, rfl, rfl, rfl, rfl, rfl⟩

end Sys2Proof.Machine
end

section
/-! SUPPORT. What a command that does not read a piece of state makes of a change to it; with it the statements about the reach
of CRC and of RBUF (20_memory.md). -/

namespace Sys2Proof.Machine

/-! ### A change of the block that a command does not see (R39) -/

/-- The state with its block changed by `f`. -/
def State.mapBlock (f : Block → Block) (s : State) : State := { s with block := f s.block }

/-- The ending with the block that it leaves changed by `f`. -/
def Ending.mapBlock (f : Block → Block) : Ending → Ending
  | .ok b r => .ok (f b) r
  | .err e => .err e
  | .raise c => .raise c

/-- `f` neither reads nor writes STATUS. -/
def OffStatus (f : Block → Block) : Prop :=
  ∀ b : Block, (f b).status = b.status ∧ ∀ c, (f b).raiseFault c = f (b.raiseFault c)

/-- A write of CRC is off STATUS. -/
theorem offStatus_setCrc (c : BitVec 16) : OffStatus (·.setCrc c) := fun _ => ⟨rfl, fun _ => rfl⟩

/-- A write of RBUF is off STATUS. -/
theorem offStatus_setRbuf (r : Bytes) : OffStatus (·.setRbuf r) := fun _ => ⟨rfl, fun _ => rfl⟩

/-- A change off STATUS keeps STATUS. -/
theorem OffStatus.status {f : Block → Block} (hf : OffStatus f) (b : Block) : (f b).status = b.status := (hf b).1

/-- A change off STATUS is made before or after taking a fault, as one likes. -/
theorem OffStatus.raiseFault {f : Block → Block} (hf : OffStatus f) (b : Block) (c : Cause) :
    (f b).raiseFault c = f (b.raiseFault c) := (hf b).2 c

/-- A change off STATUS does not change whether the block is faulted. -/
theorem OffStatus.faulted {f : Block → Block} (hf : OffStatus f) (s : State) :
    (s.mapBlock f).block.faulted = s.block.faulted := congrArg statusFault (hf.status s.block)

/-- A change off STATUS does not change the stored cause. -/
theorem OffStatus.cause {f : Block → Block} (hf : OffStatus f) (s : State) :
    (s.mapBlock f).block.cause = s.block.cause := congrArg statusCause (hf.status s.block)

/-- A change that the ending takes along is made before or after the command's end, as one likes. -/
theorem OffStatus.finish {f : Block → Block} (hf : OffStatus f) (s : State) (e : Ending) :
    (s.mapBlock f).finish (e.mapBlock f) = (s.finish e).mapBlock f := by
  cases e with
  | ok b r => rfl
  | err e => rfl
  | raise c =>
    calc (s.mapBlock f).finish (.raise c)
        = s.answered ((f s.block).raiseFault c) [0x80, c.code.zeroExtend 8] := rfl
      _ = s.answered (f (s.block.raiseFault c)) [0x80, c.code.zeroExtend 8] := by rw [hf.raiseFault]

/-- Command `i` does not see the change `f` of the block: it overwrites what `f` changes, whatever that was, or it takes the
change along. `overwrites` says which. -/
def Overlooks (i : Instr) (f : Block → Block) (overwrites : Bool) : Prop :=
  ∀ s : State,
    (overwrites = true ∧ ∃ b r, endingOf i s = .ok b r ∧ endingOf i (s.mapBlock f) = .ok b r) ∨
    (overwrites = false ∧ endingOf i (s.mapBlock f) = (endingOf i s).mapBlock f)

/-- A command that does not see a change answers as without it. The change is gone afterwards or is still the only
difference, and on a running block it is gone whenever the command overwrites it. -/
theorem Overlooks.exec {i : Instr} {f : Block → Block} {w : Bool} (hi : Overlooks i f w) (hf : OffStatus f) {s t : State}
    (h : exec i s = .next t) :
    exec i (s.mapBlock f) = .next t ∨ (exec i (s.mapBlock f) = .next (t.mapBlock f) ∧ (s.running → w = false)) := by
  rw [exec_eq] at h
  cases h
  rw [exec_eq, hf.faulted, hf.cause]
  split
  next hturned =>
    have hfaulted : s.block.faulted = true := (Bool.and_eq_true_iff.mp hturned).1
    exact .inr ⟨rfl, fun hrun => (Bool.false_ne_true (hrun.symm.trans hfaulted)).elim⟩
  next =>
    obtain ⟨-, b, r, he, he'⟩ | ⟨hw, he⟩ := hi s
    · exact .inl (by rw [he, he']; rfl)
    · exact .inr ⟨by rw [he, hf.finish], fun _ => hw⟩

/-- A VENC takes every change of the block along. -/
theorem vencEnding_mapBlock (f : Block → Block) (s : State) (x : Except Error Bytes) :
    vencEnding (s.mapBlock f) x = (vencEnding s x).mapBlock f := by
  cases x <;> rfl

/-- A VDEC takes every change of the block along. -/
theorem vdecEnding_mapBlock (f : Block → Block) (s : State) (x : Except Error Value) :
    vdecEnding (s.mapBlock f) x = (vdecEnding s x).mapBlock f := by
  cases x <;> rfl

/-- A command that neither reads nor writes CRC or RBUF takes every change off STATUS along. -/
theorem endingOf_mapBlock_of_stateless {i : Instr} (hrc : readsCrc i = false) (hwc : writesCrc i = false)
    (hrr : readsRbuf i = false) (hwr : writesRbuf i = false) {f : Block → Block} (hf : OffStatus f) (s : State) :
    endingOf i (s.mapBlock f) = (endingOf i s).mapBlock f := by
  cases i with
  | crcUpd | crcRd => cases hrc
  | crcClr | crc16 | reset => cases hwc
  | rsmFeed | rsmLvl => cases hrr
  | rsmRst => cases hwr
  | nop => rfl
  | rdstat =>
    exact congrArg (fun status => Ending.ok (f s.block) (.statusReg (statusRead status))) (hf.status s.block)
  | fenc | fdec => simp only [endingOf]; split <;> rfl
  | venc | vencI8 | vencU8 | vencI16 | vencU16 | vencI32 | vencU32 | vencBool | vencFloat | vencString =>
    exact vencEnding_mapBlock f s _
  | vdec | vdecI8 | vdecU8 | vdecI16 | vdecU16 | vdecI32 | vdecU32 | vdecBool | vdecFloat =>
    exact vdecEnding_mapBlock f s _
  | vdecString exp data => exact vdecEnding_mapBlock f s (vdecString exp data)

/-- A feed takes a change of CRC along. -/
theorem feedEnding_setCrc (P : Params) (b : Block) (chunk : Bytes) (c : BitVec 16) :
    feedEnding P (b.setCrc c) chunk = (feedEnding P b chunk).mapBlock (·.setCrc c) := by
  unfold feedEnding
  rw [rbufAppend_rbuf, rbufAppend_rbuf, setCrc_rbuf]
  split
  · rfl
  · cases parseStream (b.rbuf ++ chunk) <;> rfl

/-- A command that does not read CRC does not see a change of it. -/
theorem overlooks_setCrc {i : Instr} (h : readsCrc i = false) (c : BitVec 16) :
    Overlooks i (·.setCrc c) (writesCrc i) := by
  intro s
  cases i with
  | crcUpd | crcRd => cases h
  | crcClr | crc16 | reset => exact .inl ⟨rfl, _, _, rfl, rfl⟩
  | rsmRst | rsmLvl => exact .inr ⟨rfl, rfl⟩
  | rsmFeed chunk => exact .inr ⟨rfl, feedEnding_setCrc Config.params s.block chunk c⟩
  | _ => exact .inr ⟨rfl, endingOf_mapBlock_of_stateless rfl rfl rfl rfl (offStatus_setCrc c) s⟩

/-- A command that does not read RBUF does not see a change of it. -/
theorem overlooks_setRbuf {i : Instr} (h : readsRbuf i = false) (r : Bytes) :
    Overlooks i (·.setRbuf r) (writesRbuf i) := by
  intro s
  cases i with
  | rsmFeed | rsmLvl => cases h
  | rsmRst | reset => exact .inl ⟨rfl, _, _, rfl, rfl⟩
  | crcClr | crcUpd | crcRd | crc16 => exact .inr ⟨rfl, rfl⟩
  | _ => exact .inr ⟨rfl, endingOf_mapBlock_of_stateless rfl rfl rfl rfl (offStatus_setRbuf r) s⟩

/-- Settles O10: the change of CRC is gone afterwards, or is the only difference and no writer has run. -/
theorem crcReachesOnlyItsReaders : Obligations.CrcReachesOnlyItsReaders := by
  intro i s t c hreads h
  obtain hexec | ⟨hexec, hkept⟩ := (overlooks_setCrc hreads c).exec (offStatus_setCrc c) h
  · exact ⟨t, hexec, rfl, rfl, rfl, fun _ _ => rfl⟩
  · exact ⟨_, hexec, rfl, rfl, rfl, fun hrun hwrites => (Bool.false_ne_true ((hkept hrun).symm.trans hwrites)).elim⟩

/-- Settles O11: the change of RBUF is gone afterwards, or is the only difference and no writer has run. -/
theorem rbufReachesOnlyItsReaders : Obligations.RbufReachesOnlyItsReaders := by
  intro i s t r hreads h
  obtain hexec | ⟨hexec, hkept⟩ := (overlooks_setRbuf hreads r).exec (offStatus_setRbuf r) h
  · exact ⟨t, hexec, rfl, rfl, rfl, fun _ _ => rfl⟩
  · exact ⟨_, hexec, rfl, rfl, rfl, fun hrun hwrites => (Bool.false_ne_true ((hkept hrun).symm.trans hwrites)).elim⟩

end Sys2Proof.Machine
end

section
/-! SUPPORT. The decoder reads the packet of every well-formed command back (30_encoding.md R45 to R47, R57, R67). -/

namespace Sys2Proof

open Sys2Proof.Machine

/-- A fitting count is one below 2^32. -/
theorem fitsCount_iff (d : Bytes) : d.fitsCount = true ↔ d.length < 2 ^ 32 := decide_eq_true_iff

/-- Reading the two bytes of a 16-bit operand gives it back. -/
theorem ofNat_unLE_le16 (v : BitVec 16) : BitVec.ofNat 16 (unLE (le16 v)) = v := by
  rw [unLE_le16, BitVec.ofNat_toNat, BitVec.setWidth_eq]

/-- Format S read back. -/
theorem parseS_encodeCounted (mk : Bytes → Instr) {d : Bytes} (h : d.fitsCount = true) (t : Bytes) :
    parseS mk (encodeCounted d ++ t) = .ok (mk d, t) := by
  unfold parseS
  simp only [takeCounted_encode d t ((fitsCount_iff d).mp h)]

/-- Format F read back. -/
theorem parse_fenc (dest src : BitVec 16) (func : Byte) {payload : Bytes} (h : payload.fitsCount = true) (t : Bytes) :
    parse (encode (.fenc dest src func payload) ++ t) = .ok (.fenc dest src func payload, t) := by
  have hdest : BitVec.ofNat 16 (unLE [_, _]) = dest := ofNat_unLE_le16 dest
  have hsrc : BitVec.ofNat 16 (unLE [_, _]) = src := ofNat_unLE_le16 src
  calc parse (encode (.fenc dest src func payload) ++ t)
      = parseF (le16 dest ++ le16 src ++ func :: (encodeCounted payload ++ t)) := rfl
    _ = .ok (.fenc dest src func payload, t) := by
      unfold parseF le16
      simp only [List.cons_append, List.nil_append, takeCounted_encode payload t ((fitsCount_iff payload).mp h),
        hdest, hsrc]

/-- Format V read back: the row is the one that the type byte selects. -/
theorem parse_encodeV (type exp : Byte) {value : Value} (h : value.wellFormed = true) (t : Bytes) :
    parse (encodeV type exp value ++ t) = .ok (vencRow type exp value, t) := by
  obtain ⟨tag, u, henc, htake⟩ := takeValue_encode value t h
  calc parse (encodeV type exp value ++ t)
      = parseV (type :: exp :: (encodeValue value ++ t)) := rfl
    _ = parseV (type :: exp :: tag :: u) := by rw [henc]
    _ = .ok (vencRow type exp value, t) := by unfold parseV; simp only [htake]

/-- Format D read back: the row is the one that the type byte selects. -/
theorem parse_encodeD (type exp : Byte) {data : Bytes} (h : data.fitsCount = true) (t : Bytes) :
    parse (encodeD type exp data ++ t) = .ok (vdecRow type exp data, t) := by
  calc parse (encodeD type exp data ++ t)
      = parseD (type :: exp :: (encodeCounted data ++ t)) := rfl
    _ = .ok (vdecRow type exp data, t) := by
      unfold parseD
      simp only [takeCounted_encode data t ((fitsCount_iff data).mp h)]

/-- A type code that no typed row has selects the k = 1 row of VENC. -/
theorem vencRow_unknownType {type : Byte} (h : unknownType type = true) (exp : Byte) (value : Value) :
    vencRow type exp value = .venc type exp value := by
  obtain ⟨n, hn⟩ := Nat.exists_eq_add_of_le' (of_decide_eq_true h)
  unfold vencRow
  rw [hn]
  rfl

/-- A type code that no typed row has selects the k = 1 row of VDEC. -/
theorem vdecRow_unknownType {type : Byte} (h : unknownType type = true) (exp : Byte) (data : Bytes) :
    vdecRow type exp data = .vdec type exp data := by
  obtain ⟨n, hn⟩ := Nat.exists_eq_add_of_le' (of_decide_eq_true h)
  unfold vdecRow
  rw [hn]
  rfl

/-- The parser reads a command back from the front of its packet and leaves what follows. -/
theorem parse_encode {i : Instr} (h : i.wellFormed = true) (t : Bytes) : parse (encode i ++ t) = .ok (i, t) := by
  cases i with
  | nop | crcClr | crcUpd | crcRd | rsmRst | rsmLvl | rdstat | reset => rfl
  | crc16 => exact parseS_encodeCounted .crc16 h t
  | fdec => exact parseS_encodeCounted .fdec h t
  | rsmFeed => exact parseS_encodeCounted .rsmFeed h t
  | fenc dest src func payload => exact parse_fenc dest src func h t
  | venc type exp value =>
    obtain ⟨htype, hvalue⟩ := Bool.and_eq_true_iff.mp h
    exact (parse_encodeV type exp hvalue t).trans (by rw [vencRow_unknownType htype])
  | vdec type exp data =>
    obtain ⟨htype, hdata⟩ := Bool.and_eq_true_iff.mp h
    exact (parse_encodeD type exp hdata t).trans (by rw [vdecRow_unknownType htype])
  | vencI8 | vencU8 | vencI16 | vencU16 | vencI32 | vencU32 | vencBool | vencFloat | vencString =>
    exact parse_encodeV _ _ h t
  | vdecI8 | vdecU8 | vdecI16 | vdecU16 | vdecI32 | vdecU32 | vdecBool | vdecFloat | vdecString =>
    exact parse_encodeD _ _ h t

/-- The packet of a well-formed command decodes to that command. -/
theorem decode_encode {i : Instr} (h : i.wellFormed = true) : decode (encode i) = .ok i := by
  have hparse : parse (encode i) = .ok (i, []) := by
    rw [← parse_encode h [], List.append_nil]
  unfold decode
  rw [hparse]

end Sys2Proof
end

section
/-! SUPPORT. The port: a command neither reads nor writes what is still presented, so a run over the packets of a command
sequence is the fold of the commands (20_memory.md R36). -/

namespace Sys2Proof.Machine

/-- The state with the port's inbox replaced. -/
def State.withInbox (s : State) (q : List HostEvent) : State := { s with inbox := q }

/-- What is presented is no part of the block. -/
theorem withInbox_block (s : State) (q : List HostEvent) : (s.withInbox q).block = s.block := rfl

/-- Answering does not look at the inbox. -/
theorem respond_withInbox (s : State) (q : List HostEvent) (r : Response) :
    (s.withInbox q).respond r = (s.respond r).withInbox q := rfl

/-- A presented packet that decodes is executed, and has left the port when it is. -/
theorem step_of_decode {p : Bytes} {i : Instr} (h : decode p = .ok i) (s : State) (q : List HostEvent) :
    step (s.withInbox (.command p :: q)) = exec i (s.withInbox q) := by
  change step { s with inbox := .command p :: q } = _
  unfold step
  simp only [h]
  rfl

/-- A command's ending does not depend on what is still presented. -/
theorem endingOf_withInbox (i : Instr) (s : State) (q : List HostEvent) :
    endingOf i (s.withInbox q) = endingOf i s := by
  cases i <;> rfl

/-- Nor does the end of the command. -/
theorem finish_withInbox (s : State) (e : Ending) (q : List HostEvent) :
    (s.withInbox q).finish e = (s.finish e).withInbox q := by
  cases e <;> rfl

/-- The end of a command leaves the inbox as it was. -/
theorem finish_inbox (s : State) (e : Ending) : (s.finish e).inbox = s.inbox := by
  cases e <;> rfl

/-- A command has a next state, leaves the inbox as it was, and does the same whatever is still presented. -/
theorem exec_withInbox (i : Instr) (s : State) :
    ∃ t, exec i s = .next t ∧ t.inbox = s.inbox ∧ ∀ q, exec i (s.withInbox q) = .next (t.withInbox q) := by
  refine ⟨_, exec_eq i s, ?_, fun q => ?_⟩
  · split
    · rfl
    · exact finish_inbox s _
  · rw [exec_eq, endingOf_withInbox, finish_withInbox, withInbox_block, respond_withInbox]
    exact congrArg Host.Outcome.next (apply_ite (State.withInbox · q) _ _ _).symm

/-- What follows a next state; a stop of the machine ends the run. -/
def andThen (o : Host.Outcome State Fault Refusal) (rest : State → Host.Outcome State Fault Refusal) :
    Host.Outcome State Fault Refusal :=
  match o with
  | .next t => rest t
  | .fault r => .fault r
  | .refused r => .refused r

/-- One step more is a step and then the rest. -/
theorem stepTimes_succ (n : Nat) (s : State) : stepTimes (n + 1) s = andThen (step s) (stepTimes n) := rfl

/-- One command more is the command and then the rest. -/
theorem execAll_cons (i : Instr) (is : List Instr) (s : State) :
    execAll (i :: is) s = andThen (exec i s) (execAll is) := rfl

/-- Settles O14, by induction on the commands: each step takes one packet, whose command leaves the others in the port. -/
theorem stepsFoldTheCommands : Obligations.StepsFoldTheCommands := by
  intro is
  induction is with
  | nil => intro s _ hs; cases s; cases hs; rfl
  | cons i is ih =>
    intro s hwf hs
    obtain ⟨t, hexec, hinbox, hport⟩ := exec_withInbox i s
    have hstep : step (s.withInbox ((i :: is).map fun j => .command (encode j))) =
        .next (t.withInbox (is.map fun j => .command (encode j))) :=
      (step_of_decode (decode_encode (hwf i List.mem_cons_self)) s _).trans (hport _)
    have hrest := ih t (fun j hj => hwf j (List.mem_cons_of_mem i hj)) (hinbox.trans hs)
    change stepTimes (is.length + 1) (s.withInbox _) = execAll (i :: is) s
    rw [stepTimes_succ, execAll_cons, hstep, hexec]
    exact hrest

end Sys2Proof.Machine
end

section
/-! SUPPORT. The decoder and the encoder are inverse to each other on well-formed commands and packets, and the packets that
decode are told by their lengths (30_encoding.md R45 to R48, R57 to R60). -/

namespace Sys2Proof

open Sys2Proof.Machine

/-! ### The row that a type byte selects (R57, R67) -/

/-- A type byte is one of the nine codes, or none of them. -/
theorem typeByte_cases (type : Byte) :
    unknownType type = true ∨ type = 0 ∨ type = 1 ∨ type = 2 ∨ type = 3 ∨ type = 4 ∨ type = 5 ∨ type = 6 ∨ type = 7 ∨
      type = 8 := by
  obtain ⟨⟨n, hn⟩⟩ := type
  rcases n with _ | _ | _ | _ | _ | _ | _ | _ | _ | n
  · exact .inr (.inl rfl)
  · exact .inr (.inr (.inl rfl))
  · exact .inr (.inr (.inr (.inl rfl)))
  · exact .inr (.inr (.inr (.inr (.inl rfl))))
  · exact .inr (.inr (.inr (.inr (.inr (.inl rfl)))))
  · exact .inr (.inr (.inr (.inr (.inr (.inr (.inl rfl))))))
  · exact .inr (.inr (.inr (.inr (.inr (.inr (.inr (.inl rfl)))))))
  · exact .inr (.inr (.inr (.inr (.inr (.inr (.inr (.inr (.inl rfl))))))))
  · exact .inr (.inr (.inr (.inr (.inr (.inr (.inr (.inr (.inr rfl))))))))
  · exact .inl (decide_eq_true (Nat.le_add_left 9 n))

/-- The VENC row of a type byte has the packet of format V with that byte, is well-formed when its value is, and does what the
k = 1 row does. -/
theorem vencRow_spec (type exp : Byte) (value : Value) :
    encode (vencRow type exp value) = encodeV type exp value ∧
      (vencRow type exp value).wellFormed = value.wellFormed ∧
      exec (vencRow type exp value) = exec (.venc type exp value) := by
  obtain h | rfl | rfl | rfl | rfl | rfl | rfl | rfl | rfl | rfl := typeByte_cases type
  · rw [vencRow_unknownType h]
    exact ⟨rfl, (congrArg (· && value.wellFormed) h).trans (Bool.true_and _), rfl⟩
  all_goals exact ⟨rfl, rfl, rfl⟩

/-- The VDEC row of a type byte has the packet of format D with that byte, is well-formed when its data fits the count, and does
what the k = 1 row does. -/
theorem vdecRow_spec (type exp : Byte) (data : Bytes) :
    encode (vdecRow type exp data) = encodeD type exp data ∧
      (vdecRow type exp data).wellFormed = data.fitsCount ∧
      exec (vdecRow type exp data) = exec (.vdec type exp data) := by
  obtain h | rfl | rfl | rfl | rfl | rfl | rfl | rfl | rfl | rfl := typeByte_cases type
  · rw [vdecRow_unknownType h]
    exact ⟨rfl, (congrArg (· && data.fitsCount) h).trans (Bool.true_and _), rfl⟩
  all_goals exact ⟨rfl, rfl, rfl⟩

/-! ### What the parser does with an opcode (R46) -/

/-- `op` is the whole packet of a command without operands. -/
def OpcodeOnly (op : Byte) (t : Bytes) : Prop :=
  ∃ i, encode i = [op] ∧ i.wellFormed = true ∧ packetLength (op :: t) = some 1 ∧ op ≠ 0x20

/-- `op` is the opcode of a command of format S: a counted operand follows it. -/
def FormatS (op : Byte) (t : Bytes) : Prop :=
  ∃ mk, parse (op :: t) = parseS mk t ∧ (∀ d, encode (mk d) = op :: encodeCounted d) ∧
    (∀ d, (mk d).wellFormed = d.fitsCount) ∧ packetLength (op :: t) = some (5 + unLE (slice t 0 4)) ∧ op ≠ 0x20

/-- The opcode of a command without operands, by its number. -/
theorem opcodeOnly_of_toNat {op : Byte} {t : Bytes} (n : Byte) (hop : op.toNat = n.toNat) (i : Instr)
    (henc : encode i = [n]) (hwf : i.wellFormed = true) (hlen : packetLength (op :: t) = some 1) (hne : n ≠ 0x20) :
    OpcodeOnly op t := by
  cases BitVec.eq_of_toNat_eq hop
  exact ⟨i, henc, hwf, hlen, hne⟩

/-- The opcode of a command of format S, by its number. -/
theorem formatS_of_toNat {op : Byte} {t : Bytes} (n : Byte) (hop : op.toNat = n.toNat) (mk : Bytes → Instr)
    (hparse : parse (n :: t) = parseS mk t) (henc : ∀ d, encode (mk d) = n :: encodeCounted d)
    (hwf : ∀ d, (mk d).wellFormed = d.fitsCount) (hlen : packetLength (op :: t) = some (5 + unLE (slice t 0 4)))
    (hne : n ≠ 0x20) : FormatS op t := by
  cases BitVec.eq_of_toNat_eq hop
  exact ⟨mk, hparse, henc, hwf, hlen, hne⟩

/-- The opcodes by their formats: one without operands, B, S, F, V, D, or none of R46. -/
theorem parse_cons_cases (op : Byte) (t : Bytes) :
    OpcodeOnly op t ∨ op = 0x02 ∨ FormatS op t ∨ op = 0x10 ∨ op = 0x20 ∨ op = 0x21 ∨
      (parse (op :: t) = .error (.unknownOpcode op) ∧ packetLength (op :: t) = none) := by
  have byte (n : Byte) (hop : op.toNat = n.toNat) : op = n := BitVec.eq_of_toNat_eq hop
  obtain ⟨L, hlen⟩ : ∃ L, packetLength (op :: t) = L := ⟨_, rfl⟩
  have hL := hlen
  unfold packetLength at hL
  rw [List.getD_cons_zero] at hL
  split at hL
  next hop => exact .inl (opcodeOnly_of_toNat 0x00 hop .nop rfl rfl (hlen.trans hL.symm) (by decide))
  next hop => exact .inl (opcodeOnly_of_toNat 0x01 hop .crcClr rfl rfl (hlen.trans hL.symm) (by decide))
  next hop => exact .inl (opcodeOnly_of_toNat 0x03 hop .crcRd rfl rfl (hlen.trans hL.symm) (by decide))
  next hop => exact .inl (opcodeOnly_of_toNat 0x31 hop .rsmRst rfl rfl (hlen.trans hL.symm) (by decide))
  next hop => exact .inl (opcodeOnly_of_toNat 0x32 hop .rsmLvl rfl rfl (hlen.trans hL.symm) (by decide))
  next hop => exact .inl (opcodeOnly_of_toNat 0x40 hop .rdstat rfl rfl (hlen.trans hL.symm) (by decide))
  next hop => exact .inl (opcodeOnly_of_toNat 0xFF hop .reset rfl rfl (hlen.trans hL.symm) (by decide))
  next hop => exact .inr (.inl (byte 0x02 hop))
  next hop =>
    exact .inr (.inr (.inl
      (formatS_of_toNat 0x04 hop .crc16 rfl (fun _ => rfl) (fun _ => rfl) (hlen.trans hL.symm) (by decide))))
  next hop =>
    exact .inr (.inr (.inl
      (formatS_of_toNat 0x11 hop .fdec rfl (fun _ => rfl) (fun _ => rfl) (hlen.trans hL.symm) (by decide))))
  next hop =>
    exact .inr (.inr (.inl
      (formatS_of_toNat 0x30 hop .rsmFeed rfl (fun _ => rfl) (fun _ => rfl) (hlen.trans hL.symm) (by decide))))
  next hop => exact .inr (.inr (.inr (.inl (byte 0x10 hop))))
  next hop => exact .inr (.inr (.inr (.inr (.inl (byte 0x20 hop)))))
  next hop => exact .inr (.inr (.inr (.inr (.inr (.inl (byte 0x21 hop))))))
  next =>
    refine .inr (.inr (.inr (.inr (.inr (.inr ⟨?_, hlen.trans hL.symm⟩)))))
    clear hlen hL
    unfold parse
    dsimp only
    split
    case h_15 => rfl
    all_goals contradiction

/-! ### The formats, by the parser of their operand (R47) -/

/-- Format S is a counted operand. -/
theorem parseS_eq (mk : Bytes → Instr) (p : Bytes) : parseS mk p = (takeCounted p).map (Prod.map mk id) := by
  unfold parseS
  cases takeCounted p <;> rfl

/-- Format F is five bytes and a counted operand. -/
theorem parseF_cons (d0 d1 s0 s1 func : Byte) (t : Bytes) :
    parseF (d0 :: d1 :: s0 :: s1 :: func :: t) = (takeCounted t).map
      (Prod.map (.fenc (BitVec.ofNat 16 (unLE [d0, d1])) (BitVec.ofNat 16 (unLE [s0, s1])) func) id) := by
  unfold parseF
  cases h : takeCounted t <;> simp only [h] <;> rfl

/-- Format V is three bytes and the body of a Value. -/
theorem parseV_cons (type exp tag : Byte) (t : Bytes) :
    parseV (type :: exp :: tag :: t) = (takeValue tag t).map (Prod.map (vencRow type exp) id) := by
  unfold parseV
  cases h : takeValue tag t <;> simp only [h] <;> rfl

/-- Format D is two bytes and a counted operand. -/
theorem parseD_cons (type exp : Byte) (t : Bytes) :
    parseD (type :: exp :: t) = (takeCounted t).map (Prod.map (vdecRow type exp) id) := by
  unfold parseD
  cases h : takeCounted t <;> simp only [h] <;> rfl

/-- What is accepted when the operand is made into something else. -/
theorem map_eq_ok {α β : Type} {x : Except Illegal (α × Bytes)} {f : α → β} {b : β} {t : Bytes}
    (h : x.map (Prod.map f id) = .ok (b, t)) : ∃ a, x = .ok (a, t) ∧ f a = b := by
  cases x with
  | error e => cases h
  | ok r => cases h; exact ⟨r.1, rfl, rfl⟩

/-! ### What the parser accepts is what the encoder writes (R46, R47) -/

/-- The two bytes of a 16-bit operand are those of the number that they spell. -/
theorem le16_ofNat_unLE (b0 b1 : Byte) : le16 (BitVec.ofNat 16 (unLE [b0, b1])) = [b0, b1] := by
  have hlt : unLE [b0, b1] < 2 ^ 16 := by simpa using unLE_lt [b0, b1]
  rw [le16_eq, BitVec.toNat_ofNat, Nat.mod_eq_of_lt hlt]
  exact leBytes_unLE [b0, b1]

/-- What format B accepts. -/
theorem parseB_ok {p t : Bytes} {i : Instr} (h : parseB .crcUpd p = .ok (i, t)) :
    0x02 :: p = encode i ++ t ∧ i.wellFormed = true := by
  cases p with
  | nil => cases h
  | cons b u => cases h; exact ⟨rfl, rfl⟩

/-- What format S accepts. -/
theorem parseS_ok {op : Byte} {mk : Bytes → Instr} {p t : Bytes} {i : Instr}
    (henc : ∀ d, encode (mk d) = op :: encodeCounted d) (hwf : ∀ d, (mk d).wellFormed = d.fitsCount)
    (h : parseS mk p = .ok (i, t)) : op :: p = encode i ++ t ∧ i.wellFormed = true := by
  rw [parseS_eq] at h
  obtain ⟨d, hd, rfl⟩ := map_eq_ok h
  obtain ⟨rfl, hlt⟩ := takeCounted_ok hd
  rw [henc, hwf]
  exact ⟨rfl, (fitsCount_iff d).mpr hlt⟩

/-- What format F accepts. -/
theorem parseF_ok {p t : Bytes} {i : Instr} (h : parseF p = .ok (i, t)) :
    0x10 :: p = encode i ++ t ∧ i.wellFormed = true := by
  rcases p with _ | ⟨d0, _ | ⟨d1, _ | ⟨s0, _ | ⟨s1, _ | ⟨func, u⟩⟩⟩⟩⟩
  case cons.cons.cons.cons.cons =>
    rw [parseF_cons] at h
    obtain ⟨payload, hpayload, rfl⟩ := map_eq_ok h
    obtain ⟨rfl, hlt⟩ := takeCounted_ok hpayload
    refine ⟨?_, (fitsCount_iff payload).mpr hlt⟩
    change _ = 0x10 :: (le16 _ ++ le16 _ ++ [func] ++ encodeCounted payload) ++ t
    rw [le16_ofNat_unLE, le16_ofNat_unLE]
    rfl
  all_goals cases h

/-- What format V accepts. -/
theorem parseV_ok {p t : Bytes} {i : Instr} (h : parseV p = .ok (i, t)) :
    0x20 :: p = encode i ++ t ∧ i.wellFormed = true := by
  rcases p with _ | ⟨type, _ | ⟨exp, _ | ⟨tag, u⟩⟩⟩
  case cons.cons.cons =>
    rw [parseV_cons] at h
    obtain ⟨value, hvalue, rfl⟩ := map_eq_ok h
    obtain ⟨hu, hwf⟩ := takeValue_ok hvalue
    obtain ⟨henc, hrow, -⟩ := vencRow_spec type exp value
    rw [henc, hrow, hu]
    exact ⟨rfl, hwf⟩
  all_goals cases h

/-- What format D accepts. -/
theorem parseD_ok {p t : Bytes} {i : Instr} (h : parseD p = .ok (i, t)) :
    0x21 :: p = encode i ++ t ∧ i.wellFormed = true := by
  rcases p with _ | ⟨type, _ | ⟨exp, u⟩⟩
  case cons.cons =>
    rw [parseD_cons] at h
    obtain ⟨data, hdata, rfl⟩ := map_eq_ok h
    obtain ⟨rfl, hlt⟩ := takeCounted_ok hdata
    obtain ⟨henc, hrow, -⟩ := vdecRow_spec type exp data
    rw [henc, hrow]
    exact ⟨rfl, (fitsCount_iff data).mpr hlt⟩
  all_goals cases h

/-- What the parser accepts: the packet of a well-formed command, with the bytes behind it left. -/
theorem parse_ok {p t : Bytes} {i : Instr} (h : parse p = .ok (i, t)) : p = encode i ++ t ∧ i.wellFormed = true := by
  cases p with
  | nil => cases h
  | cons op u =>
    obtain ⟨j, henc, hwf, -, -⟩ | rfl | ⟨mk, hparse, henc, hwf, -, -⟩ | rfl | rfl | rfl | ⟨hparse, -⟩ :=
      parse_cons_cases op u
    · have hj := parse_encode hwf u
      rw [henc] at hj
      cases hj.symm.trans h
      rw [henc]
      exact ⟨rfl, hwf⟩
    · exact parseB_ok h
    · exact parseS_ok henc hwf (hparse.symm.trans h)
    · exact parseF_ok h
    · exact parseV_ok h
    · exact parseD_ok h
    · rw [hparse] at h
      cases h

/-- A packet decodes when the parser reads a command and leaves nothing. -/
theorem decode_eq_ok_iff (p : Bytes) (i : Instr) : decode p = .ok i ↔ parse p = .ok (i, []) := by
  unfold decode
  rcases parse p with e | ⟨j, _ | ⟨b, t⟩⟩ <;> simp

/-- Settles O16: the parser reads the command back from its packet and leaves nothing. -/
theorem decodeOfEncodeIsTheCommand : Obligations.DecodeOfEncodeIsTheCommand := fun _ h => decode_encode h

/-- Settles O17: what the parser accepts, with nothing left behind it. -/
theorem encodeOfDecodeIsThePacket : Obligations.EncodeOfDecodeIsThePacket := by
  intro p i h
  obtain ⟨hp, hwf⟩ := parse_ok ((decode_eq_ok_iff p i).mp h)
  rw [List.append_nil] at hp
  exact ⟨hp.symm, hwf⟩

end Sys2Proof
end

section
/-! SUPPORT. The packets that decode, told by their lengths (30_encoding.md R47, R60). -/

namespace Sys2Proof

open Sys2Proof.Machine

/-! ### Parsers that leave nothing behind -/

/-- The parser's outcome is a result with nothing left behind it. -/
def ReadsAll {α : Type} (r : Except Illegal (α × Bytes)) : Prop := ∃ a, r = .ok (a, [])

/-- A result is read to the end when nothing is left. -/
theorem readsAll_ok {α : Type} (r : α × Bytes) : ReadsAll (.ok r) ↔ r.2 = [] := by
  obtain ⟨a, t⟩ := r
  constructor
  · rintro ⟨b, h⟩
    cases h
    rfl
  · rintro rfl
    exact ⟨a, rfl⟩

/-- A rejection reads nothing to the end. -/
theorem not_readsAll_error {α : Type} (e : Illegal) : ¬ ReadsAll (.error e : Except Illegal (α × Bytes)) := by
  rintro ⟨a, h⟩
  cases h

/-- What is made into something else is read to the end when it was. -/
theorem readsAll_map {α β : Type} (f : α → β) (x : Except Illegal (α × Bytes)) :
    ReadsAll (x.map (Prod.map f id)) ↔ ReadsAll x := by
  cases x with
  | error e => exact iff_of_false (not_readsAll_error _) (not_readsAll_error _)
  | ok r => exact (readsAll_ok _).trans (readsAll_ok r).symm

/-- A packet decodes when the parser reads it to the end. -/
theorem exists_decode_iff (p : Bytes) : (∃ i, decode p = .ok i) ↔ ReadsAll (parse p) :=
  exists_congr (decode_eq_ok_iff p)

/-- n bytes are read to the end when there are n. -/
theorem readsAll_takeBytes (n : Nat) (p : Bytes) : ReadsAll (takeBytes n p) ↔ p.length = n := by
  unfold takeBytes
  split
  · simp only [not_readsAll_error, false_iff]; omega
  · rw [readsAll_ok, List.drop_eq_nil_iff]; omega

/-- A counted operand is read to the end when its count is the number of the bytes behind it. -/
theorem readsAll_takeCounted (p : Bytes) : ReadsAll (takeCounted p) ↔ p.length = 4 + unLE (slice p 0 4) := by
  change _ ↔ p.length = 4 + unLE (p.take 4)
  unfold takeCounted
  by_cases h : p.length < 4
  · have hshort : takeBytes 4 p = .error .truncated := if_pos h
    simp only [hshort, not_readsAll_error, false_iff]; omega
  · have hcount : takeBytes 4 p = .ok (p.take 4, p.drop 4) := if_neg h
    simp only [hcount, readsAll_takeBytes, List.length_drop]; omega

/-- A number's body is read to the end when it has eight bytes. -/
theorem readsAll_takeValue_num (p : Bytes) : ReadsAll (takeValue 0 p) ↔ p.length = 8 := by
  have hbody : takeValue 0 p = (takeBytes 8 p).map (Prod.map (fun v => .num (BitVec.ofNat 64 (unLE v))) id) := by
    unfold takeValue
    cases takeBytes 8 p <;> rfl
  rw [hbody, readsAll_map, readsAll_takeBytes]

/-- A BOOL's body is read to the end when it is one byte, 0x00 or 0x01. -/
theorem readsAll_takeValue_bool (p : Bytes) :
    ReadsAll (takeValue 1 p) ↔ p.length = 1 ∧ (p.getD 0 0).toNat ≤ 1 := by
  cases p with
  | nil => exact iff_of_false (not_readsAll_error _) fun h => Nat.zero_ne_one h.1
  | cons b t =>
    rw [List.length_cons, Nat.add_eq_right, List.length_eq_zero_iff, List.getD_cons_zero]
    by_cases h0 : b = 0
    · cases h0
      exact (readsAll_ok (Value.bool false, t)).trans (and_iff_left zero_le_one).symm
    · by_cases h1 : b = 1
      · cases h1
        exact (readsAll_ok (Value.bool true, t)).trans (and_iff_left le_rfl).symm
      · have hbad : takeValue 1 (b :: t) = .error (.badBool b) := (if_neg h0).trans (if_neg h1)
        refine iff_of_false (hbad ▸ not_readsAll_error _) fun h => ?_
        obtain hb | hb := Nat.le_one_iff_eq_zero_or_eq_one.mp h.2
        · exact h0 (BitVec.eq_of_toNat_eq hb)
        · exact h1 (BitVec.eq_of_toNat_eq hb)

/-- A pattern's body is read to the end when it has four bytes. -/
theorem readsAll_takeValue_f32 (p : Bytes) : ReadsAll (takeValue 2 p) ↔ p.length = 4 := by
  have hbody : takeValue 2 p = (takeBytes 4 p).map (Prod.map (fun v => .f32 (BitVec.ofNat 32 (unLE v))) id) := by
    unfold takeValue
    cases takeBytes 4 p <;> rfl
  rw [hbody, readsAll_map, readsAll_takeBytes]

/-- A text's body is read to the end when its count is the number of the bytes behind it. -/
theorem readsAll_takeValue_str (p : Bytes) : ReadsAll (takeValue 3 p) ↔ p.length = 4 + unLE (slice p 0 4) := by
  have hbody : takeValue 3 p = (takeCounted p).map (Prod.map .str id) := by
    unfold takeValue
    cases takeCounted p <;> rfl
  rw [hbody, readsAll_map, readsAll_takeCounted]

/-- A body behind a tag above 3 is not read. -/
theorem not_readsAll_takeValue {tag : Byte} (h : 4 ≤ tag.toNat) (p : Bytes) : ¬ ReadsAll (takeValue tag p) := by
  obtain ⟨n, hn⟩ := Nat.exists_eq_add_of_le' h
  unfold takeValue
  rw [hn]
  exact not_readsAll_error _

/-- Format B is read to the end when it is one byte. -/
theorem readsAll_parseB (mk : Byte → Instr) (p : Bytes) : ReadsAll (parseB mk p) ↔ p.length = 1 := by
  cases p with
  | nil => exact iff_of_false (not_readsAll_error _) Nat.zero_ne_one
  | cons b t => rw [List.length_cons, Nat.add_eq_right, List.length_eq_zero_iff]; exact readsAll_ok _

/-- Format S is read to the end when its operand is. -/
theorem readsAll_parseS (mk : Bytes → Instr) (p : Bytes) :
    ReadsAll (parseS mk p) ↔ p.length = 4 + unLE (slice p 0 4) := by
  rw [parseS_eq, readsAll_map, readsAll_takeCounted]

/-- Format F is read to the end when its operand behind five bytes is. -/
theorem readsAll_parseF (p : Bytes) : ReadsAll (parseF p) ↔ p.length = 9 + unLE (slice p 5 9) := by
  rcases p with _ | ⟨d0, _ | ⟨d1, _ | ⟨s0, _ | ⟨s1, _ | ⟨func, t⟩⟩⟩⟩⟩
  case cons.cons.cons.cons.cons =>
    have hslice : slice (d0 :: d1 :: s0 :: s1 :: func :: t) 5 9 = slice t 0 4 := rfl
    rw [parseF_cons, readsAll_map, readsAll_takeCounted, hslice]
    simp only [List.length_cons]
    omega
  all_goals
    refine iff_of_false (not_readsAll_error _) (Nat.ne_of_lt (Nat.lt_add_right _ ?_))
    simp only [List.length_cons, List.length_nil]
    decide

/-- Format V is read to the end when the Value behind its three bytes is. -/
theorem readsAll_parseV (type exp tag : Byte) (t : Bytes) :
    ReadsAll (parseV (type :: exp :: tag :: t)) ↔ ReadsAll (takeValue tag t) := by
  rw [parseV_cons, readsAll_map]

/-- Format D is read to the end when its operand behind two bytes is. -/
theorem readsAll_parseD (p : Bytes) : ReadsAll (parseD p) ↔ p.length = 6 + unLE (slice p 2 6) := by
  rcases p with _ | ⟨type, _ | ⟨exp, t⟩⟩
  case cons.cons =>
    have hslice : slice (type :: exp :: t) 2 6 = slice t 0 4 := rfl
    rw [parseD_cons, readsAll_map, readsAll_takeCounted, hslice]
    simp only [List.length_cons]
    omega
  all_goals
    refine iff_of_false (not_readsAll_error _) (Nat.ne_of_lt (Nat.lt_add_right _ ?_))
    simp only [List.length_cons, List.length_nil]
    decide

/-! ### The packets of the right lengths -/

/-- A well-formed packet is not empty, has its implied length and a legal BOOL byte, if any. -/
theorem packetWellFormed_iff (p : Bytes) :
    packetWellFormed p = true ↔ (p ≠ [] ∧ packetLength p = some p.length) ∧ boolByteLegal p = true := by
  change (decide (p ≠ []) && decide (packetLength p = some p.length) && boolByteLegal p) = true ↔ _
  rw [Bool.and_eq_true, Bool.and_eq_true, decide_eq_true_iff, decide_eq_true_iff]

/-- A packet with an implied length is well-formed when it has that length and its BOOL byte, if any, is legal. -/
theorem packetWellFormed_iff_of_length {op : Byte} {t : Bytes} {n : Nat} (h : packetLength (op :: t) = some n) :
    packetWellFormed (op :: t) = true ↔ t.length + 1 = n ∧ boolByteLegal (op :: t) = true := by
  rw [packetWellFormed_iff, h, List.length_cons, Option.some_inj, eq_comm (a := n)]
  exact and_congr_left' (and_iff_right (List.cons_ne_nil op t))

/-- A packet whose opcode or tag implies no length is not well-formed. -/
theorem not_packetWellFormed_of_none {p : Bytes} (h : packetLength p = none) : ¬ packetWellFormed p = true := by
  rw [packetWellFormed_iff, h]
  rintro ⟨⟨-, hlen⟩, -⟩
  cases hlen

/-- A packet of another format than V is well-formed when it has its implied length. -/
theorem packetWellFormed_iff_of_ne {op : Byte} {t : Bytes} {n : Nat} (hop : op ≠ 0x20)
    (h : packetLength (op :: t) = some n) : packetWellFormed (op :: t) = true ↔ t.length + 1 = n := by
  refine (packetWellFormed_iff_of_length h).trans (and_iff_left ?_)
  change (!(op == 0x20 && _) || _) = true
  rw [beq_eq_false_iff_ne.mpr hop]
  rfl

/-- A tag above 3 implies no length. -/
theorem packetLength_badTag {tag : Byte} (h : 4 ≤ tag.toNat) (type exp : Byte) (t : Bytes) :
    packetLength (0x20 :: type :: exp :: tag :: t) = none := by
  obtain ⟨⟨k, hk⟩⟩ := tag
  obtain ⟨n, rfl⟩ : ∃ n, k = n + 4 := Nat.exists_eq_add_of_le' h
  rfl

/-- A tag is one of the four of R47, or above them. -/
theorem tag_cases (tag : Byte) : tag = 0 ∨ tag = 1 ∨ tag = 2 ∨ tag = 3 ∨ 4 ≤ tag.toNat := by
  obtain ⟨⟨n, hn⟩⟩ := tag
  rcases n with _ | _ | _ | _ | n
  · exact .inl rfl
  · exact .inr (.inl rfl)
  · exact .inr (.inr (.inl rfl))
  · exact .inr (.inr (.inr (.inl rfl)))
  · exact .inr (.inr (.inr (.inr (Nat.le_add_left 4 n))))

/-- A packet of format V is well-formed when its Value's body has the length that is left for it and its BOOL byte, if any, is
legal. -/
theorem packetWellFormed_formatV_iff {type exp tag : Byte} {t : Bytes} (n : Nat)
    (h : packetLength (0x20 :: type :: exp :: tag :: t) = some (4 + n)) :
    packetWellFormed (0x20 :: type :: exp :: tag :: t) = true ↔
      t.length = n ∧ boolByteLegal (0x20 :: type :: exp :: tag :: t) = true := by
  have hlen : (type :: exp :: tag :: t).length + 1 = 4 + n ↔ t.length = n := by
    rw [List.length_cons, List.length_cons, List.length_cons]
    omega
  rw [packetWellFormed_iff_of_length h, hlen]

/-- A packet with a number is well-formed when the number's body has eight bytes. -/
theorem packetWellFormed_num (type exp : Byte) (t : Bytes) :
    packetWellFormed (0x20 :: type :: exp :: 0 :: t) = true ↔ t.length = 8 :=
  (packetWellFormed_formatV_iff 8 rfl).trans (and_iff_left rfl)

/-- A packet with a BOOL is well-formed when the BOOL's body is one byte, 0x00 or 0x01. -/
theorem packetWellFormed_bool (type exp : Byte) (t : Bytes) :
    packetWellFormed (0x20 :: type :: exp :: 1 :: t) = true ↔ t.length = 1 ∧ (t.getD 0 0).toNat ≤ 1 :=
  (packetWellFormed_formatV_iff 1 rfl).trans (and_congr_right fun _ => decide_eq_true_iff)

/-- A packet with a pattern is well-formed when the pattern's body has four bytes. -/
theorem packetWellFormed_f32 (type exp : Byte) (t : Bytes) :
    packetWellFormed (0x20 :: type :: exp :: 2 :: t) = true ↔ t.length = 4 :=
  (packetWellFormed_formatV_iff 4 rfl).trans (and_iff_left rfl)

/-- A packet with a text is well-formed when the text's count is the number of the bytes behind it. -/
theorem packetWellFormed_str (type exp : Byte) (t : Bytes) :
    packetWellFormed (0x20 :: type :: exp :: 3 :: t) = true ↔ t.length = 4 + unLE (slice t 0 4) := by
  have hlen : packetLength (0x20 :: type :: exp :: 3 :: t) = some (4 + (4 + unLE (slice t 0 4))) :=
    congrArg some (Nat.add_assoc 4 4 _)
  exact (packetWellFormed_formatV_iff _ hlen).trans (and_iff_left rfl)

/-- A packet of format V is well-formed when its Value is read to the end. -/
theorem packetWellFormed_formatV (type exp tag : Byte) (t : Bytes) :
    packetWellFormed (0x20 :: type :: exp :: tag :: t) = true ↔ ReadsAll (takeValue tag t) := by
  obtain rfl | rfl | rfl | rfl | htag := tag_cases tag
  · rw [packetWellFormed_num, readsAll_takeValue_num]
  · rw [packetWellFormed_bool, readsAll_takeValue_bool]
  · rw [packetWellFormed_f32, readsAll_takeValue_f32]
  · rw [packetWellFormed_str, readsAll_takeValue_str]
  · exact iff_of_false (not_packetWellFormed_of_none (packetLength_badTag htag type exp t))
      (not_readsAll_takeValue htag t)

/-- A packet of format B is well-formed when the parser reads it to the end. -/
theorem formatB_iff (mk : Byte → Instr) (t : Bytes) : packetWellFormed (0x02 :: t) = true ↔ ReadsAll (parseB mk t) := by
  rw [packetWellFormed_iff_of_ne (n := 2) (by decide) rfl, readsAll_parseB]
  omega

/-- A packet of format F is well-formed when the parser reads it to the end. -/
theorem formatF_iff (t : Bytes) : packetWellFormed (0x10 :: t) = true ↔ ReadsAll (parseF t) := by
  rw [packetWellFormed_iff_of_ne (n := 10 + unLE (slice t 5 9)) (by decide) rfl, readsAll_parseF]
  omega

/-- A packet of format V is well-formed when the parser reads it to the end. -/
theorem formatV_iff (t : Bytes) : packetWellFormed (0x20 :: t) = true ↔ ReadsAll (parseV t) := by
  rcases t with _ | ⟨type, _ | ⟨exp, _ | ⟨tag, t⟩⟩⟩
  case cons.cons.cons => rw [packetWellFormed_formatV, readsAll_parseV]
  all_goals
    refine iff_of_false (fun h => ?_) (not_readsAll_error _)
    exact absurd ((packetWellFormed_iff_of_length (n := 12) rfl).mp h).1 (by simp)

/-- A packet of format D is well-formed when the parser reads it to the end. -/
theorem formatD_iff (t : Bytes) : packetWellFormed (0x21 :: t) = true ↔ ReadsAll (parseD t) := by
  rw [packetWellFormed_iff_of_ne (n := 7 + unLE (slice t 2 6)) (by decide) rfl, readsAll_parseD]
  omega

/-- A packet is well-formed when the parser reads it to the end. -/
theorem packetWellFormed_iff_readsAll (p : Bytes) : packetWellFormed p = true ↔ ReadsAll (parse p) := by
  cases p with
  | nil => exact iff_of_false (by decide) (not_readsAll_error _)
  | cons op t =>
    obtain ⟨i, henc, hwf, hlen, hne⟩ | rfl | ⟨mk, hparse, -, -, hlen, hne⟩ | rfl | rfl | rfl | ⟨hparse, hlen⟩ :=
      parse_cons_cases op t
    · have hparse := parse_encode hwf t
      rw [henc] at hparse
      rw [packetWellFormed_iff_of_ne hne hlen, Nat.add_eq_right, List.length_eq_zero_iff]
      exact (hparse ▸ readsAll_ok (i, t)).symm
    · exact formatB_iff _ t
    · rw [hparse, packetWellFormed_iff_of_ne hne hlen, readsAll_parseS]
      omega
    · exact formatF_iff t
    · exact formatV_iff t
    · exact formatD_iff t
    · rw [hparse]
      exact iff_of_false (not_packetWellFormed_of_none hlen) (not_readsAll_error _)

/-- Settles O18: both sides say that the parser reads the packet to the end. -/
theorem decodesExactlyWellFormedPackets : Obligations.DecodesExactlyWellFormedPackets :=
  fun p => (packetWellFormed_iff_readsAll p).trans (exists_decode_iff p).symm

/-- A packet that is not well-formed is rejected. -/
theorem decode_error_of_not_wellFormed {p : Bytes} (h : packetWellFormed p = false) : ∃ e, decode p = .error e := by
  cases hdecode : decode p with
  | error e => exact ⟨e, rfl⟩
  | ok i =>
    have hwf : packetWellFormed p = true := (decodesExactlyWellFormedPackets p).mpr ⟨i, hdecode⟩
    exact (Bool.false_ne_true (h.symm.trans hwf)).elim

/-- Settles O13: the packet is rejected, and every rejection is answered 04. -/
theorem illegalPacketAnsweredIllegalCommand : Obligations.IllegalPacketAnsweredIllegalCommand := by
  intro s p rest hinbox hwf
  obtain ⟨e, hdecode⟩ := decode_error_of_not_wellFormed hwf
  calc step s = illegal { s with inbox := rest } := by
        unfold step
        simp only [hinbox, hdecode]
    _ = .next (({ s with inbox := rest } : State).answered s.block [0x04]) := rfl

end Sys2Proof
end

section
/-! SUPPORT. The responses (30_encoding.md R45, R48, R49): which outcomes a command has, the k = 1 rows of the value codec, and
the count field. -/

namespace Sys2Proof.Machine

/-! ### No command is answered IllegalCommand (R49, R60) -/

/-- A choice of two outcomes is not a third one. -/
theorem ite_ne_of_ne {α : Type} {p : Prop} [Decidable p] {x y z : α} (hx : x ≠ z) (hy : y ≠ z) :
    (if p then x else y) ≠ z := by
  split
  · exact hx
  · exact hy

/-- A result is not IllegalCommand. -/
theorem ok_ne_illegal {α : Type} (a : α) : (.ok a : Except Error α) ≠ .error .illegalCommand := by
  intro h; cases h

/-- Another error is not IllegalCommand. -/
theorem error_ne_illegal {α : Type} {e : Error} (he : e ≠ .illegalCommand) :
    (.error e : Except Error α) ≠ .error .illegalCommand := by
  intro h; cases h; exact he rfl

/-- EncodeError is not IllegalCommand. -/
theorem encodeError_ne_illegal : (.error .encodeError : Except Error Bytes) ≠ .error .illegalCommand :=
  error_ne_illegal (by decide)

/-- DecodeError is not IllegalCommand. -/
theorem decodeError_ne_illegal : (.error .decodeError : Except Error Value) ≠ .error .illegalCommand :=
  error_ne_illegal (by decide)

/-- Refused is not IllegalCommand. -/
theorem refused_ne_illegal {α : Type} : (.error .refused : Except Error α) ≠ .error .illegalCommand :=
  error_ne_illegal (by decide)

/-- An integer encode is not IllegalCommand. -/
theorem vencIntType_ne_illegal (P : Params) (T : IntType) (exp : Byte) (value : Value) :
    vencIntType P T exp value ≠ .error .illegalCommand := by
  cases value with
  | num c =>
    have hint : vencInt P T (expOf exp) c.toInt ≠ .error .illegalCommand :=
      ite_ne_of_ne encodeError_ne_illegal (ite_ne_of_ne encodeError_ne_illegal (ok_ne_illegal _))
    exact ite_ne_of_ne hint refused_ne_illegal
  | bool | f32 | str => exact encodeError_ne_illegal

/-- A BOOL encode is not IllegalCommand. -/
theorem vencBool_ne_illegal (exp : Byte) (value : Value) : vencBool exp value ≠ .error .illegalCommand := by
  cases value with
  | bool t => exact ite_ne_of_ne (ok_ne_illegal _) refused_ne_illegal
  | num | f32 | str => exact encodeError_ne_illegal

/-- A FLOAT encode is not IllegalCommand. -/
theorem vencFloat_ne_illegal (exp : Byte) (value : Value) : vencFloat exp value ≠ .error .illegalCommand := by
  cases value with
  | f32 p => exact ok_ne_illegal _
  | num | bool | str => exact encodeError_ne_illegal

/-- A STRING encode is not IllegalCommand. -/
theorem vencString_ne_illegal (exp : Byte) (value : Value) : vencString exp value ≠ .error .illegalCommand := by
  cases value with
  | str text => exact ok_ne_illegal _
  | num | bool | f32 => exact encodeError_ne_illegal

/-- An encode by type code is not IllegalCommand. -/
theorem vencAny_ne_illegal (P : Params) (type exp : Byte) (value : Value) :
    vencAny P type exp value ≠ .error .illegalCommand := by
  unfold vencAny
  cases declTypeOf type with
  | none => exact encodeError_ne_illegal
  | some T =>
    cases T with
    | i8 | u8 | i16 | u16 | i32 | u32 => exact vencIntType_ne_illegal P _ exp value
    | bool => exact vencBool_ne_illegal exp value
    | float => exact vencFloat_ne_illegal exp value
    | string => exact vencString_ne_illegal exp value

/-- An integer decode is not IllegalCommand. -/
theorem vdecIntType_ne_illegal (P : Params) (T : IntType) (exp : Byte) (data : Bytes) :
    vdecIntType P T exp data ≠ .error .illegalCommand :=
  ite_ne_of_ne decodeError_ne_illegal (ite_ne_of_ne (ok_ne_illegal _) refused_ne_illegal)

/-- A BOOL decode is not IllegalCommand. -/
theorem vdecBool_ne_illegal (exp : Byte) (data : Bytes) : vdecBool exp data ≠ .error .illegalCommand := by
  cases data with
  | nil => exact decodeError_ne_illegal
  | cons b rest => exact ite_ne_of_ne (ok_ne_illegal _) refused_ne_illegal

/-- A FLOAT decode is not IllegalCommand. -/
theorem vdecFloat_ne_illegal (P : Params) (exp : Byte) (data : Bytes) :
    vdecFloat P exp data ≠ .error .illegalCommand := by
  refine ite_ne_of_ne decodeError_ne_illegal (ite_ne_of_ne (ok_ne_illegal _) (ite_ne_of_ne ?_ refused_ne_illegal))
  cases P.floatScale with
  | none => exact refused_ne_illegal
  | some scale => exact ok_ne_illegal _

/-- A decode by type code is not IllegalCommand. -/
theorem vdecAny_ne_illegal (P : Params) (type exp : Byte) (data : Bytes) :
    vdecAny P type exp data ≠ .error .illegalCommand := by
  unfold vdecAny
  cases declTypeOf type with
  | none => exact decodeError_ne_illegal
  | some T =>
    cases T with
    | i8 | u8 | i16 | u16 | i32 | u32 => exact vdecIntType_ne_illegal P _ exp data
    | bool => exact vdecBool_ne_illegal exp data
    | float => exact vdecFloat_ne_illegal P exp data
    | string => exact ok_ne_illegal _

/-- A command that ends well does not end with IllegalCommand. -/
theorem endOk_ne_illegal (b : Block) (r : Result) : Ending.ok b r ≠ .err .illegalCommand := by
  intro h; cases h

/-- A command that ends with another error does not end with IllegalCommand. -/
theorem endErr_ne_illegal {e : Error} (he : e ≠ .illegalCommand) : Ending.err e ≠ .err .illegalCommand := by
  intro h; cases h; exact he rfl

/-- A VENC does not end with IllegalCommand when its encode does not. -/
theorem vencEnding_ne_illegal (s : State) {x : Except Error Bytes} (hx : x ≠ .error .illegalCommand) :
    vencEnding s x ≠ .err .illegalCommand := by
  cases x with
  | ok d => exact endOk_ne_illegal _ _
  | error e => exact endErr_ne_illegal fun he => hx (congrArg _ he)

/-- A VDEC does not end with IllegalCommand when its decode does not. -/
theorem vdecEnding_ne_illegal (s : State) {x : Except Error Value} (hx : x ≠ .error .illegalCommand) :
    vdecEnding s x ≠ .err .illegalCommand := by
  cases x with
  | ok v => exact endOk_ne_illegal _ _
  | error e => exact endErr_ne_illegal fun he => hx (congrArg _ he)

/-- A feed does not end with IllegalCommand. -/
theorem feedEnding_ne_illegal (P : Params) (b : Block) (chunk : Bytes) :
    feedEnding P b chunk ≠ .err .illegalCommand := by
  obtain ⟨-, h⟩ | ⟨-, ⟨rest, frames, -, h⟩ | ⟨-, h⟩⟩ := feedEnding_cases P b chunk <;> rw [h]
  · exact endErr_ne_illegal (by decide)
  · exact endOk_ne_illegal _ _
  · intro h'; cases h'

/-- No command ends with IllegalCommand: that is for packets that spell none. -/
theorem endingOf_ne_illegal (i : Instr) (s : State) : endingOf i s ≠ .err .illegalCommand := by
  cases i with
  | nop | crcClr | crcUpd | crcRd | crc16 | rsmRst | rsmLvl | rdstat | reset | vdecString => exact endOk_ne_illegal _ _
  | fenc | fdec => exact ite_ne_of_ne (endErr_ne_illegal (by decide)) (endOk_ne_illegal _ _)
  | rsmFeed => exact feedEnding_ne_illegal _ _ _
  | venc => exact vencEnding_ne_illegal s (vencAny_ne_illegal _ _ _ _)
  | vencI8 | vencU8 | vencI16 | vencU16 | vencI32 | vencU32 =>
    exact vencEnding_ne_illegal s (vencIntType_ne_illegal _ _ _ _)
  | vencBool => exact vencEnding_ne_illegal s (vencBool_ne_illegal _ _)
  | vencFloat => exact vencEnding_ne_illegal s (vencFloat_ne_illegal _ _)
  | vencString => exact vencEnding_ne_illegal s (vencString_ne_illegal _ _)
  | vdec => exact vdecEnding_ne_illegal s (vdecAny_ne_illegal _ _ _ _)
  | vdecI8 | vdecU8 | vdecI16 | vdecU16 | vdecI32 | vdecU32 =>
    exact vdecEnding_ne_illegal s (vdecIntType_ne_illegal _ _ _ _)
  | vdecBool => exact vdecEnding_ne_illegal s (vdecBool_ne_illegal _ _)
  | vdecFloat => exact vdecEnding_ne_illegal s (vdecFloat_ne_illegal _ _ _)

/-! ### The one response of a command (R45, R130, R140) -/

/-- From `s` a command has led to `t` with one response of the given status and result, and has left unchanged what that
status leaves unchanged. -/
def OneResponse (s t : State) (status : Byte) (result : Bytes) : Prop :=
  t.inbox = s.inbox ∧ t.outbox = s.outbox ++ [status :: result] ∧
  (status = 0x00 ∨ status = 0x01 ∨ status = 0x02 ∨ status = 0x03 ∨ status = 0x05 ∨ status = 0x06 ∨ status = 0x80) ∧
  (status ≠ 0x00 → t.block.crc = s.block.crc ∧ t.block.rbuf = s.block.rbuf) ∧
  (status ≠ 0x00 → status ≠ 0x80 → t.block = s.block ∧ result = []) ∧
  (status = 0x80 → t.block.faulted = true ∧ result = [(t.block.status.extractLsb' 0 4).zeroExtend 8])

/-- The response OK leaves whatever block the command has made. -/
theorem oneResponse_ok (s : State) (b : Block) (result : Bytes) :
    OneResponse s (s.answered b (0x00 :: result)) 0x00 result :=
  ⟨rfl, rfl, .inl rfl, fun h => absurd rfl h, fun h => absurd rfl h, fun h => absurd h (by decide)⟩

/-- The error responses but IllegalCommand leave the block as it was. -/
theorem oneResponse_error (s : State) {e : Error} (he : e ≠ .illegalCommand) :
    OneResponse s (s.answered s.block [e.code]) e.code [] := by
  refine ⟨rfl, rfl, ?_, fun _ => ⟨rfl, rfl⟩, fun _ _ => ⟨rfl, rfl⟩, fun h => ?_⟩
  · cases e with
    | illegalCommand => exact absurd rfl he
    | encodeError => exact .inr (.inl rfl)
    | decodeError => exact .inr (.inr (.inl rfl))
    | lengthError => exact .inr (.inr (.inr (.inl rfl)))
    | bufferOverflow => exact .inr (.inr (.inr (.inr (.inl rfl))))
    | refused => exact .inr (.inr (.inr (.inr (.inr (.inl rfl)))))
  · cases e <;> cases h

/-- The response Faulted is given by a faulted block whose CRC and RBUF are as they were. -/
theorem oneResponse_faulted {s : State} {b : Block} (hcrc : b.crc = s.block.crc) (hrbuf : b.rbuf = s.block.rbuf)
    (hfaulted : b.faulted = true) :
    OneResponse s (s.answered b [0x80, b.cause.zeroExtend 8]) 0x80 [b.cause.zeroExtend 8] :=
  ⟨rfl, rfl, .inr (.inr (.inr (.inr (.inr (.inr rfl))))), fun _ => ⟨hcrc, hrbuf⟩, fun _ h => absurd rfl h, fun _ => ⟨hfaulted, rfl⟩⟩

/-- Taking a fault sets FAULT. -/
theorem raiseFault_faulted (b : Block) (c : Cause) : (b.raiseFault c).faulted = true := by
  change (b.status &&& 0x70 ||| 0x80 ||| c.code.zeroExtend 8).getLsbD 7 = true
  simp

/-- Taking a fault stores its cause. -/
theorem raiseFault_cause (b : Block) (c : Cause) : (b.raiseFault c).cause = c.code := by
  change (b.status &&& 0x70 ||| 0x80 ||| c.code.zeroExtend 8).extractLsb' 0 4 = c.code
  have hreserved : (0x70 : Byte).extractLsb' 0 4 = 0 := rfl
  have hfault : (0x80 : Byte).extractLsb' 0 4 = 0 := rfl
  have hcause : (c.code.zeroExtend 8).extractLsb' 0 4 = c.code := by cases c; rfl
  rw [BitVec.extractLsb'_or, BitVec.extractLsb'_or, BitVec.extractLsb'_and, hreserved, hfault, hcause]
  simp

/-- The end of a command is one response, unless the ending is IllegalCommand. -/
theorem finish_oneResponse (s : State) {e : Ending} (he : e ≠ .err .illegalCommand) :
    ∃ status result, OneResponse s (s.finish e) status result := by
  cases e with
  | ok b r => exact ⟨_, _, oneResponse_ok s b r.marshal⟩
  | err e => exact ⟨_, _, oneResponse_error s fun h => he (congrArg Ending.err h)⟩
  | raise c =>
    have h := oneResponse_faulted (s := s) (raiseFault_crc s.block c) (raiseFault_rbuf s.block c)
      (raiseFault_faulted s.block c)
    rw [raiseFault_cause] at h
    exact ⟨_, _, h⟩

/-- Settles O8: a faulted block answers its cause, and otherwise the command ends with its one response. -/
theorem oneResponseAndErrorsChangeNothing : Obligations.OneResponseAndErrorsChangeNothing := by
  intro i s
  suffices h : ∃ t, exec i s = .next t ∧ ∃ status result, OneResponse s t status result by
    obtain ⟨t, hexec, status, result, hone⟩ := h
    exact ⟨status, result, t, hexec, hone⟩
  refine ⟨_, exec_eq i s, ?_⟩
  split
  next hturned =>
    have hfaulted : s.block.faulted = true := (Bool.and_eq_true_iff.mp hturned).1
    exact ⟨_, _, oneResponse_faulted rfl rfl hfaulted⟩
  · exact finish_oneResponse s (endingOf_ne_illegal i s)

/-! ### The k = 1 rows of the value codec (R67) -/

/-- The four bytes of a pattern, least significant first. -/
theorem leBytes_four (p : BitVec 32) :
    leBytes 4 p.toNat = [p.extractLsb' 0 8, p.extractLsb' 8 8, p.extractLsb' 16 8, p.extractLsb' 24 8] := by
  have hbyte (k : Nat) : p.extractLsb' k 8 = BitVec.ofNat 8 (p.toNat / 2 ^ k) :=
    congrArg (BitVec.ofNat 8) (Nat.shiftRight_eq_div_pow p.toNat k)
  rw [hbyte, hbyte, hbyte, hbyte, pow_zero, Nat.div_one]
  simp only [leBytes, Nat.div_div_eq_div_mul]
  rfl

/-- A text ends before the first 0x00. -/
theorem takeWhile_text {text : Bytes} (h : (0x00 : Byte) ∉ text) (rest : Bytes) :
    (text ++ 0x00 :: rest).takeWhile (fun b => b != 0x00) = text := by
  have hall : ∀ b ∈ text, (b != 0x00) = true := fun b hb => bne_iff_ne.mpr fun e => h (e ▸ hb)
  rw [List.takeWhile_append_of_pos hall, List.takeWhile_cons_of_neg (by decide), List.append_nil]

/-- Settles O41: the row that the type byte selects does the same, and the two rows written out are those of FLOAT and STRING. -/
theorem generalRowAgreesWithTypedRow : Obligations.GeneralRowAgreesWithTypedRow := by
  refine ⟨fun type exp s => ⟨fun value => ?_, fun data => ?_⟩, fun exp s hrun => ⟨fun p => ?_, fun text rest h0 hlen => ?_⟩⟩
  · obtain ⟨-, -, hexec⟩ := vencRow_spec type exp value
    exact ⟨_, exec_eq _ s, (congrFun hexec s).trans (exec_eq _ s)⟩
  · obtain ⟨-, -, hexec⟩ := vdecRow_spec type exp data
    exact ⟨_, exec_eq _ s, (congrFun hexec s).trans (exec_eq _ s)⟩
  · calc exec (.venc 7 exp (.f32 p)) s
        = .next (s.answered s.block (0x00 :: encodeCounted (leBytes 4 p.toNat))) := exec_running hrun _
      _ = _ := by rw [encodeCounted, leBytes_length, countBytes_eq (by decide), leBytes_four]; rfl
  · calc exec (.vdec 8 exp (text ++ 0x00 :: rest)) s
        = .next (s.answered s.block
            (0x00 :: encodeValue (.str ((text ++ 0x00 :: rest).takeWhile fun b => b != 0x00)))) := exec_running hrun _
      _ = _ := by rw [takeWhile_text h0, encodeValue, countBytes_eq hlen]; rfl

/-! ### The count field and packets written out (R46 to R48, R57, R58) -/

/-- Settles O48, by the laws of the count field. -/
theorem countFieldIsLittleEndian : Obligations.CountFieldIsLittleEndian :=
  fun n => ⟨countBytes_length n, fun h => ⟨countBytes_eq h, unLE_countBytes h⟩⟩

/-- Settles O15: the decoder is run on each of the six packets. -/
theorem writtenWordsDecode : Obligations.WrittenWordsDecode := ⟨rfl, rfl, rfl, rfl, rfl, rfl⟩

end Sys2Proof.Machine
end

section
/-! SUPPORT. The CRC engine: the register after a few bytes is a number of shifts of the word they spell, which gives the residue
and the burst law; one byte bit by bit; and what runs of its commands leave (40_crc.md). -/

namespace Sys2Proof.Machine

/-! ### The register after two and three bytes -/

/-- Two bytes as a 16-bit word, the first byte high. -/
def beWord (a b : Byte) : BitVec 16 := a.zeroExtend 16 <<< 8 ^^^ b.zeroExtend 16

/-- Bits of a word of two bytes. -/
theorem beWord_getLsbD (a b : Byte) {i : Nat} (hi : i < 16) :
    (beWord a b).getLsbD i = if i < 8 then b.getLsbD i else a.getLsbD (i - 8) := by
  by_cases h : i < 8
  · simp [beWord, h, hi]
  · simp [beWord, h, hi, BitVec.getLsbD_of_ge b i (by omega)]

/-- The two bytes of BE16 give the word back. -/
theorem beWord_be16 (v : BitVec 16) : beWord (v.extractLsb' 8 8) (v.extractLsb' 0 8) = v := by
  refine BitVec.eq_of_getLsbD_eq fun i hi => ?_
  rw [beWord_getLsbD _ _ hi]
  by_cases h : i < 8
  · simp [h]
  · simp [h, show i - 8 < 8 by omega, show 8 + (i - 8) = i by omega]

/-- A byte folded in after eight shifts is the byte put into the low half, then sixteen shifts. -/
theorem crcStep_crcShifts_eight (c : BitVec 16) (b : Byte) :
    crcStep (crcShifts 8 c) b = crcShifts 16 (c ^^^ b.zeroExtend 16) := by
  rw [crcStep, ← crcShifts_byte, ← crcShifts_xor]
  exact (crcShifts_add 8 8 _).symm

/-- Two bytes are folded in as one word. -/
theorem crcStep_crcStep (c : BitVec 16) (a b : Byte) :
    crcStep (crcStep c a) b = crcShifts 16 (c ^^^ beWord a b) := by
  calc crcStep (crcStep c a) b
      = crcShifts 16 (c ^^^ a.zeroExtend 16 <<< 8 ^^^ b.zeroExtend 16) := crcStep_crcShifts_eight _ b
    _ = _ := by rw [BitVec.xor_assoc, beWord]

/-- The checksum of three bytes. -/
theorem crc16_three (a b d : Byte) :
    crc16 [a, b, d] = crcShifts 16 (crcShifts 8 (beWord a b) ^^^ d.zeroExtend 16) := by
  calc crc16 [a, b, d] = crcStep (crcStep (crcStep 0 a) b) d := rfl
    _ = crcStep (crcShifts 16 (0#16 ^^^ beWord a b)) d := congrArg (crcStep · d) (crcStep_crcStep 0 a b)
    _ = crcStep (crcShifts 8 (crcShifts 8 (beWord a b))) d := by
      rw [BitVec.zero_xor, ← crcShifts_add 8 8]
    _ = _ := crcStep_crcShifts_eight _ d

/-! ### The laws of R72 -/

/-- A zero byte leaves a zero register zero. -/
@[simp] theorem crcStep_zero : crcStep 0#16 0#8 = 0#16 := crcShifts_zero 8

/-- A leading zero byte is not seen. -/
theorem crc16_zero_cons (s : Bytes) : crc16 (0x00 :: s) = crc16 s := congrArg (s.foldl crcStep) crcStep_zero

/-- Zero bytes have the checksum of nothing. -/
theorem crc16_zeros (n : Nat) : crc16 (List.replicate n 0x00) = 0x0000 := by
  induction n with
  | zero => rfl
  | succ n ih => rw [List.replicate_succ, crc16_zero_cons, ih]

/-- The checksum appended as BE16 meets an equal register, and only zero is left to shift. -/
theorem crc16_residue (s : Bytes) :
    crc16 (s ++ [(crc16 s).extractLsb' 8 8, (crc16 s).extractLsb' 0 8]) = 0x0000 := by
  calc crc16 (s ++ [(crc16 s).extractLsb' 8 8, (crc16 s).extractLsb' 0 8])
      = crcStep (crcStep (crc16 s) ((crc16 s).extractLsb' 8 8)) ((crc16 s).extractLsb' 0 8) := crc16_append _ _
    _ = crcShifts 16 0#16 := by rw [crcStep_crcStep, beWord_be16, BitVec.xor_self]
    _ = 0 := crcShifts_zero 16

/-- Settles O20, from what two bytes and a zero byte make of the register. -/
theorem crcResidueAndZeroLaws : Obligations.CrcResidueAndZeroLaws :=
  ⟨rfl, crc16_zeros, crc16_zero_cons, crc16_residue⟩

/-! ### A burst of at most sixteen bits (R72 c) -/

/-- The fold is linear over exclusive or, in register and bytes together. -/
theorem crcFold_xor (s d : Bytes) (h : s.length = d.length) (a b : BitVec 16) :
    (List.zipWith (· ^^^ ·) s d).foldl crcStep (a ^^^ b) = s.foldl crcStep a ^^^ d.foldl crcStep b := by
  induction s generalizing d a b with
  | nil => cases d with
    | nil => rfl
    | cons y d => cases h
  | cons x s ih => cases d with
    | nil => cases h
    | cons y d =>
      rw [List.zipWith_cons_cons, List.foldl_cons, crcStep_xor]
      exact ih d (Nat.succ_inj.mp h) _ _

/-- Equal checksums mean equal registers after the part between the same bytes. -/
theorem crcFold_between_eq {pre suf u v : Bytes} (h : crc16 (pre ++ u ++ suf) = crc16 (pre ++ v ++ suf)) :
    u.foldl crcStep (crc16 pre) = v.foldl crcStep (crc16 pre) := by
  rw [crc16_append, crc16_append _ suf] at h
  rw [← crc16_append, ← crc16_append]
  exact crcFold_inj suf h

/-- Equal checksums around a changed part of equal length: the change has checksum zero. -/
theorem crc16_change_eq_zero {pre suf s d : Bytes} (hlen : s.length = d.length)
    (h : crc16 (pre ++ List.zipWith (· ^^^ ·) s d ++ suf) = crc16 (pre ++ s ++ suf)) : crc16 d = 0 := by
  have hsplit := crcFold_xor s d hlen (crc16 pre) 0#16
  rw [BitVec.xor_zero] at hsplit
  have hself : s.foldl crcStep (crc16 pre) ^^^ crc16 d = s.foldl crcStep (crc16 pre) ^^^ 0#16 :=
    hsplit.symm.trans ((crcFold_between_eq h).trans BitVec.xor_zero.symm)
  exact (BitVec.xor_right_inj _).mp hself

/-- The three bytes of a 16-bit pattern `k` bits up in them. -/
def burstBytes (e : BitVec 16) (k : Nat) : Bytes :=
  [(e.zeroExtend 24 <<< k).extractLsb' 16 8, (e.zeroExtend 24 <<< k).extractLsb' 8 8,
    (e.zeroExtend 24 <<< k).extractLsb' 0 8]

/-- The word of a burst's first two bytes. -/
theorem beWord_burst (e : BitVec 16) {k : Nat} (hk : k ≤ 8) :
    beWord ((e.zeroExtend 24 <<< k).extractLsb' 16 8) ((e.zeroExtend 24 <<< k).extractLsb' 8 8) = e >>> (8 - k) := by
  refine BitVec.eq_of_getLsbD_eq fun i hi => ?_
  have hidx : 8 - k + i = 8 + i - k := by omega
  rw [beWord_getLsbD _ _ hi, BitVec.getLsbD_ushiftRight, hidx]
  by_cases h : i < 8 <;> grind

/-- A word is its high part moved back up, and the bits below. -/
theorem eq_shiftLeft_ushiftRight_xor (e : BitVec 16) (n : Nat) :
    e = e >>> n <<< n ^^^ (e.setWidth n).setWidth 16 := by
  refine BitVec.eq_of_getLsbD_eq fun i hi => ?_
  by_cases h : i < n
  · simp [h, hi]
  · grind

/-- The low bits of a burst's pattern, moved up, are the burst's last byte. -/
theorem shiftLeft_low_eq_burst (e : BitVec 16) {k : Nat} (hk : k ≤ 8) :
    (e.setWidth (8 - k)).setWidth 16 <<< k = ((e.zeroExtend 24 <<< k).extractLsb' 0 8).zeroExtend 16 := by
  refine BitVec.eq_of_getLsbD_eq fun i hi => ?_
  grind

/-- The high part of a word, moved back up, stays inside the word. -/
theorem ushiftRight_mul_pow_lt (e : BitVec 16) (n : Nat) : (e >>> n).toNat * 2 ^ n < 2 ^ 16 := by
  rw [BitVec.toNat_ushiftRight, Nat.shiftRight_eq_div_pow]
  exact (Nat.div_mul_le_self _ _).trans_lt e.isLt

/-- The low bits of a burst's pattern, moved up, stay inside a byte. -/
theorem setWidth_low_mul_pow_lt (e : BitVec 16) {k : Nat} (hk : k ≤ 8) :
    ((e.setWidth (8 - k)).setWidth 16).toNat * 2 ^ k < 2 ^ 8 := by
  have hlow : ((e.setWidth (8 - k)).setWidth 16).toNat < 2 ^ (8 - k) := by
    rw [BitVec.toNat_setWidth]
    exact (Nat.mod_le _ _).trans_lt (e.setWidth (8 - k)).isLt
  calc _ < 2 ^ (8 - k) * 2 ^ k := Nat.mul_lt_mul_of_pos_right hlow (Nat.two_pow_pos k)
    _ = 2 ^ 8 := by rw [← pow_add, Nat.sub_add_cancel hk]

/-- Shifting a burst's pattern to its place: the part that leaves the last byte is shifted by a whole byte. -/
theorem crcShifts_eq_burst (e : BitVec 16) {k : Nat} (hk : k ≤ 8) :
    crcShifts k e =
      crcShifts 8 (e >>> (8 - k)) ^^^ ((e.zeroExtend 24 <<< k).extractLsb' 0 8).zeroExtend 16 := by
  have hlow := (setWidth_low_mul_pow_lt e hk).trans (by decide : 2 ^ 8 < 2 ^ 16)
  calc crcShifts k e
      = crcShifts k (e >>> (8 - k) <<< (8 - k) ^^^ (e.setWidth (8 - k)).setWidth 16) :=
        congrArg _ (eq_shiftLeft_ushiftRight_xor e (8 - k))
    _ = crcShifts k (crcShifts (8 - k) (e >>> (8 - k))) ^^^ (e.setWidth (8 - k)).setWidth 16 <<< k := by
        rw [crcShifts_xor, crcShifts_small (8 - k) _ (ushiftRight_mul_pow_lt e _), crcShifts_small k _ hlow]
    _ = _ := by rw [← crcShifts_add, Nat.sub_add_cancel hk, shiftLeft_low_eq_burst e hk]

/-- The checksum of a burst alone: its pattern, shifted on to the end of the three bytes and through the register. -/
theorem crc16_burstBytes (e : BitVec 16) {k : Nat} (hk : k ≤ 8) : crc16 (burstBytes e k) = crcShifts (k + 16) e := by
  rw [burstBytes, crc16_three, beWord_burst e hk, ← crcShifts_eq_burst e hk, crcShifts_add]

/-- A burst alone has a nonzero checksum. -/
theorem crc16_burstBytes_ne_zero {e : BitVec 16} (he : e ≠ 0) {k : Nat} (hk : k ≤ 8) : crc16 (burstBytes e k) ≠ 0 := by
  intro h
  rw [crc16_burstBytes e hk] at h
  exact he (crcShifts_inj (k + 16) (h.trans (crcShifts_zero (k + 16)).symm))

/-- A burst inside two bytes is one inside three bytes of which the first is not changed. -/
theorem burstBytes_zero (e : BitVec 16) : burstBytes e 0 = [0x00, e.extractLsb' 8 8, e.extractLsb' 0 8] := by
  have hbyte (j : Nat) (hj : j + 8 ≤ 16) : (e.zeroExtend 24).extractLsb' j 8 = e.extractLsb' j 8 :=
    BitVec.eq_of_getLsbD_eq fun i hi => by simp [hi, show j + i < 24 by omega]
  have hzero : (e.zeroExtend 24).extractLsb' 16 8 = 0x00 :=
    BitVec.eq_of_getLsbD_eq fun i hi => by simp [BitVec.getLsbD_of_ge]
  rw [burstBytes, BitVec.shiftLeft_zero, hzero, hbyte 8 (by decide), hbyte 0 (by decide)]

/-- Settles O21: the fold is linear, so the change alone would have checksum zero, and it is a nonzero word only shifted on. -/
theorem burstOfSixteenBitsChangesCrc : Obligations.BurstOfSixteenBitsChangesCrc := by
  refine fun pre suf e he => ⟨fun x0 x1 x2 k hk h => ?_, fun x0 x1 h => ?_, fun x y hxy h => hxy ?_⟩
  · exact crc16_burstBytes_ne_zero he hk (crc16_change_eq_zero (s := [x0, x1, x2]) (d := burstBytes e k) rfl h)
  · have htwo : crc16 [e.extractLsb' 8 8, e.extractLsb' 0 8] = 0 := crc16_change_eq_zero (s := [x0, x1]) rfl h
    rw [← crc16_zero_cons, ← burstBytes_zero] at htwo
    exact crc16_burstBytes_ne_zero he (Nat.zero_le 8) htwo
  · exact crcStep_byte_inj (crcFold_between_eq h)

/-! ### One byte bit by bit (R70) -/

/-- One shift with the byte's bit `j` brought in at the register's high bit. -/
def bitStep (b : Byte) (r : BitVec 16) (j : Nat) : BitVec 16 :=
  if (r.getLsbD 15 ^^ b.getLsbD j) then (r <<< 1) ^^^ 0x1021#16 else r <<< 1

/-- Of an operand brought in before a shift, the high bit decides with the register's, and the rest is shifted. -/
theorem crcShift_xor_operand (r x : BitVec 16) :
    crcShift (r ^^^ x) = (if (r.getLsbD 15 ^^ x.getLsbD 15) then (r <<< 1) ^^^ 0x1021#16 else r <<< 1) ^^^ x <<< 1 := by
  rw [crcShift, BitVec.getLsbD_xor, BitVec.shiftLeft_xor_distrib]
  split
  · rw [BitVec.xor_assoc, BitVec.xor_comm (x <<< 1), ← BitVec.xor_assoc]
  · rfl

/-- The low `n` bits of the byte, most significant first, are `n` shifts with these bits at the top of the register. -/
theorem bitStep_fold (b : Byte) (n : Nat) (hn : n ≤ 8) (c : BitVec 16) :
    (List.range n).reverse.foldl (bitStep b) c = crcShifts n (c ^^^ b.zeroExtend 16 <<< (16 - n)) := by
  induction n generalizing c with
  | zero => simp [crcShifts, BitVec.shiftLeft_eq_zero]
  | succ n ih =>
    have hbit : (b.zeroExtend 16 <<< (16 - (n + 1))).getLsbD 15 = b.getLsbD n := by
      grind
    have hshift : b.zeroExtend 16 <<< (16 - (n + 1)) <<< 1 = b.zeroExtend 16 <<< (16 - n) := by
      rw [← BitVec.shiftLeft_add]
      congr 1; omega
    rw [List.range_succ, List.reverse_append, List.reverse_singleton, List.singleton_append, List.foldl_cons,
      ih (by omega), crcShifts, crcShift_xor_operand, hbit, hshift, bitStep]

/-- Settles O19, as the law for all eight bits. -/
theorem crcStepIsMsbFirst : Obligations.CrcStepIsMsbFirst :=
  fun c b => (bitStep_fold b 8 le_rfl c).symm

/-! ### The commands (R73 to R76) -/

/-- Settles O22, by the ending of the command. -/
theorem crcClrResult : Obligations.CrcClrResult := ⟨rfl, fun _ hrun => exec_running hrun .crcClr⟩

/-- Settles O23, by the ending of the command. -/
theorem crcUpdResult : Obligations.CrcUpdResult := fun b => ⟨rfl, fun _ hrun => exec_running hrun (.crcUpd b)⟩

/-- Settles O24, by the ending of the command. -/
theorem crcRdResult : Obligations.CrcRdResult := ⟨rfl, fun _ hrun => exec_running hrun .crcRd⟩

/-- Settles O25, by the ending of the command; the count field is LE32 where a packet can spell the length. -/
theorem crc16Result : Obligations.Crc16Result := by
  refine fun buf => ⟨fun hlen => ?_, fun _ hrun => exec_running hrun (.crc16 buf)⟩
  rw [encode, encodeCounted, countBytes_eq hlen]

/-! ### The streaming and the one-shot path (R77) -/

/-- The state after CRC.UPD of each byte of `ds`. -/
def State.updated (s : State) (ds : Bytes) : State :=
  { s with block := s.block.setCrc (ds.foldl crcStep s.block.crc),
           outbox := s.outbox ++ List.replicate ds.length [0x00] }

/-- One byte more is its CRC.UPD and then the others. -/
theorem updated_cons (s : State) (d : Byte) (ds : Bytes) :
    s.updated (d :: ds) = (s.answered (s.block.setCrc (crcStep s.block.crc d)) [0x00]).updated ds := by
  simp [State.updated, State.answered, Block.setCrc, List.replicate_succ]

/-- A running block finishes the first command, and then takes the rest. -/
theorem execAll_cons_running {s : State} (hrun : s.running) (i : Instr) (is : List Instr) :
    execAll (i :: is) s = execAll is (s.finish (endingOf i s)) := by
  rw [execAll_cons, exec_running hrun, andThen]

/-- A running block is running after a write of CRC and a response. -/
theorem answered_setCrc_running {s : State} (hrun : s.running) (c : BitVec 16) (p : Bytes) :
    (s.answered (s.block.setCrc c) p).running := hrun

/-- A running block takes a run of CRC.UPD, byte by byte, before whatever follows. -/
theorem execAll_crcUpds {s : State} (hrun : s.running) (ds : Bytes) (is : List Instr) :
    execAll (ds.map Instr.crcUpd ++ is) s = execAll is (s.updated ds) := by
  induction ds generalizing s with
  | nil => simp [State.updated, Block.setCrc]
  | cons d ds ih =>
    rw [List.map_cons, List.cons_append, execAll_cons_running hrun, updated_cons]
    exact ih (answered_setCrc_running hrun _ _)

/-- CRC.STREAM on a running block: cleared, updated with each byte, read. -/
theorem execAll_crcStream (bs : Bytes) {s : State} (hrun : s.running) :
    execAll (Pseudo.expand (.crcStream bs)) s =
      .next (((s.answered (s.block.setCrc 0x0000) [0x00]).updated bs).answered (s.block.setCrc (crc16 bs))
        (0x00 :: le16 (crc16 bs))) := by
  have hclear := answered_setCrc_running hrun 0x0000 [0x00]
  have hupdated : ((s.answered (s.block.setCrc 0x0000) [0x00]).updated bs).running := hclear
  calc execAll (Pseudo.expand (.crcStream bs)) s
      = execAll (bs.map Instr.crcUpd ++ [Instr.crcRd]) (s.answered (s.block.setCrc 0x0000) [0x00]) :=
        execAll_cons_running hrun .crcClr _
    _ = execAll [Instr.crcRd] ((s.answered (s.block.setCrc 0x0000) [0x00]).updated bs) := execAll_crcUpds hclear bs _
    _ = _ := execAll_cons_running hupdated .crcRd []

/-- CRC16 and a run of CRC.UPD on a running block. -/
theorem execAll_crc16_crcUpds (bs ds : Bytes) {s : State} (hrun : s.running) :
    execAll (.crc16 bs :: ds.map Instr.crcUpd) s =
      .next ((s.answered (s.block.setCrc (crc16 bs)) (0x00 :: le16 (crc16 bs))).updated ds) := by
  rw [execAll_cons_running hrun, ← List.append_nil (ds.map _)]
  exact execAll_crcUpds (answered_setCrc_running hrun _ _) ds []

/-- A command that overlooks a change and does not overwrite it takes the change along, faulted or not. -/
theorem exec_mapBlock_of_overlooks {i : Instr} {f : Block → Block} (hi : Overlooks i f false) (hf : OffStatus f)
    {s t : State} (h : exec i s = .next t) : exec i (s.mapBlock f) = .next (t.mapBlock f) := by
  rw [exec_eq] at h
  cases h
  rw [exec_eq, hf.faulted, hf.cause]
  obtain ⟨hw, -⟩ | ⟨-, he⟩ := hi s
  · cases hw
  · rw [he, hf.finish]
    split <;> rfl

/-- A command that neither reads nor writes CRC leaves it, and does the same whatever it holds. -/
theorem exec_crc_bystander {i : Instr} (hreads : readsCrc i = false) (hwrites : writesCrc i = false) (s : State)
    (c : BitVec 16) :
    ∃ t, exec i s = .next t ∧ t.block.crc = s.block.crc ∧
      exec i (s.mapBlock (·.setCrc c)) = .next (t.mapBlock (·.setCrc c)) := by
  have hover := overlooks_setCrc hreads c
  rw [hwrites] at hover
  obtain ⟨hcrc, -, -⟩ := (exec_mayWrite (exec_eq i s)).frame
  exact ⟨_, exec_eq i s, hcrc hwrites, exec_mapBlock_of_overlooks hover (offStatus_setCrc c) (exec_eq i s)⟩

/-- Settles O26: the two paths fold the same step over the same bytes, and the last two commands are bystanders of CRC. -/
theorem crcStreamingEqualsOneShot : Obligations.CrcStreamingEqualsOneShot := by
  refine ⟨fun bs s hrun => ?_, fun bs ds s hrun => ?_, fun i s c hi => ?_⟩
  · refine ⟨_, _, execAll_crcStream bs hrun, execAll_cons_running hrun _ _, rfl, rfl, ?_, rfl⟩
    simp [State.updated, List.replicate_succ, le16]
  · exact ⟨_, execAll_crc16_crcUpds bs ds hrun, congrArg s.block.setCrc (crc16_append bs ds).symm⟩
  · obtain ⟨dest, src, func, payload, rfl⟩ | ⟨chunk, rfl⟩ := hi
    · exact exec_crc_bystander rfl rfl s c
    · exact exec_crc_bystander rfl rfl s c

end Sys2Proof.Machine
end

section
/-! SUPPORT. The frame codec: the parts of an encoded frame where a receiver finds them, the frame as data and its
marshalled form, and an encoded frame at the front of the reassembler's buffer (41_frame.md). -/

namespace Sys2Proof.Machine

/-! ### Where the parts of an encoded frame stand (R81, R87) -/

/-- A slice that begins where the second of three parts begins and is as long as it. -/
theorem slice_middle (x m t : Bytes) {a b : Nat} (ha : x.length = a) (hb : a + m.length = b) :
    slice (x ++ (m ++ t)) a b = m := by
  subst ha hb
  rw [slice, List.drop_left, Nat.add_sub_cancel_left, List.take_left]

section Parts
variable (dest src : BitVec 16) (func : Byte) (payload : Bytes)

/-- The length field stands behind the start byte. -/
theorem fenc_lengthSlice :
    slice (fenc dest src func payload) 1 3 = le16 (BitVec.ofNat 16 (5 + payload.length)) := rfl

/-- The checksum stands behind the bytes it covers, high byte first. -/
theorem fenc_checksumSlice :
    slice (fenc dest src func payload) (payload.length + 8) (payload.length + 10) =
      be16 (crc16 (frameBody dest src func payload)) := by
  rw [fenc_eq]
  exact slice_middle (startByte :: frameBody dest src func payload) (be16 _) [stopByte] (by simp) (by simp)

/-- The covered bytes and the checksum stand between the start byte and the stop byte. -/
theorem fenc_coveredAndChecksum :
    slice (fenc dest src func payload) 1 (payload.length + 10) =
      frameBody dest src func payload ++ be16 (crc16 (frameBody dest src func payload)) := by
  rw [fenc, List.append_assoc [startByte], List.append_assoc [startByte]]
  exact slice_middle [startByte] _ [stopByte] rfl (by simp; omega)

/-- The stop byte stands last. -/
theorem fenc_getD_stop : (fenc dest src func payload).getD (payload.length + 10) 0 = stopByte := by
  have hlen : payload.length + 10 = ([startByte] ++ frameBody dest src func payload ++
      be16 (crc16 (frameBody dest src func payload))).length := by simp
  rw [hlen]
  exact (List.getD_append_right _ [stopByte] 0 _ le_rfl).trans (by rw [Nat.sub_self]; rfl)

/-- The length field reads back as the payload's length plus 5. -/
theorem lengthField_fenc (h : payload.length ≤ 65530) :
    lengthField (fenc dest src func payload) = payload.length + 5 := by
  rw [lengthField, fenc_lengthSlice, frameLength_read payload h]

/-- Decoding the covered bytes of an encoded frame gives the operands back. -/
theorem fdec_fenc :
    fdec (slice (fenc dest src func payload) 1 ((fenc dest src func payload).length - 3)) =
      { dest := dest, src := src, func := func, payload := payload } := by
  rw [fenc_length]
  exact (congrArg fdec (fenc_covered dest src func payload)).trans (fdec_frameBody dest src func payload)

end Parts

/-- An encoded frame determines its operands, since they decode from it. -/
theorem fenc_injective {d d' r r' : BitVec 16} {f f' : Byte} {p p' : Bytes}
    (h : fenc d r f p = fenc d' r' f' p') : d = d' ∧ r = r' ∧ f = f' ∧ p = p' := by
  have hframe := fdec_fenc d r f p
  rw [h, fdec_fenc] at hframe
  cases hframe
  exact ⟨rfl, rfl, rfl, rfl⟩

/-- Settles O28: `fenc` with its body written out. -/
theorem fencLayout : Obligations.FencLayout := by
  intro dest src func payload _
  rw [Nat.add_comm payload.length 5]
  exact fenc_eq dest src func payload

/-- Settles O29: each part is read where it stands, the residue is that of an appended checksum, and the operands decode
from the frame. -/
theorem fencStructureAndInjectivity : Obligations.FencStructureAndInjectivity := by
  refine ⟨fun dest src func payload hlen => ?_, fun _ _ _ _ _ _ _ _ _ _ => fenc_injective⟩
  simp only [fenc_length]
  refine ⟨rfl, fenc_getD_stop dest src func payload, trivial, ?_, ?_, ?_⟩
  · exact lengthField_fenc dest src func payload hlen
  · calc unBE16 (slice (fenc dest src func payload) (payload.length + 8) (payload.length + 10))
        = (crc16 (frameBody dest src func payload)).toNat := by rw [fenc_checksumSlice, unBE16_be16]
      _ = _ := by rw [← fenc_covered]; rfl
  · exact (congrArg crc16 (fenc_coveredAndChecksum dest src func payload)).trans (crc16_residue _)

/-! ### The commands (R82, R84) -/

/-- Settles O27, by the ending of the command; the count fields are LE32 of lengths that fit. -/
theorem fencResult : Obligations.FencResult := by
  refine fun dest src func payload => ⟨fun hlen => ?_, fun s hrun => ?_⟩
  · rw [encode, encodeCounted, countBytes_eq hlen]
    simp [le16]
  · rw [exec_running hrun, endingOf, maxPayload]
    split
    · rfl
    · have hcount : (fenc dest src func payload).length < 2 ^ 32 := by rw [fenc_length]; omega
      rw [finish_ok, Result.marshal, encodeCounted, countBytes_eq hcount, fenc_length]
      rfl

/-- Two neighbouring bytes as a slice. -/
theorem slice_two {s : Bytes} {a : Nat} (h : a + 2 ≤ s.length) : slice s a (a + 2) = [s.getD a 0, s.getD (a + 1) 0] := by
  rw [slice, Nat.add_sub_cancel_left, List.drop_eq_getElem_cons (by omega), List.drop_eq_getElem_cons (by omega),
    List.getD_eq_getElem _ _ (by omega), List.getD_eq_getElem _ _ (by omega)]
  rfl

/-- A marshalled frame byte by byte, its count field LE32 (R65). -/
theorem Frame.marshal_eq (f : Frame) (h : f.payload.length < 2 ^ 32) :
    f.marshal = [f.dest.extractLsb' 0 8, f.dest.extractLsb' 8 8, f.src.extractLsb' 0 8, f.src.extractLsb' 8 8, f.func] ++
      leBytes 4 f.payload.length ++ f.payload := by
  simp [Frame.marshal, le16, encodeCounted, countBytes_eq h]

/-- Decoding and marshalling a body hands its bytes on from offset 2, with a count before the payload. -/
theorem marshal_fdec {body : Bytes} (h7 : 7 ≤ body.length) :
    (fdec body).marshal = [body.getD 2 0, body.getD 3 0, body.getD 4 0, body.getD 5 0, body.getD 6 0] ++
      encodeCounted (body.drop 7) := by
  rw [Frame.marshal, fdec, slice_two (a := 2) (by omega), slice_two (a := 4) (by omega), le16_ofNat_unLE, le16_ofNat_unLE]
  rfl

/-- Settles O30, by the ending of the command and the marshalled form of what `fdec` splits. -/
theorem fdecResult : Obligations.FdecResult := by
  refine fun body hlen => ⟨?_, fun s hrun => ?_⟩
  · rw [encode, encodeCounted, countBytes_eq hlen]
  · rw [exec_running hrun, endingOf]
    split
    · rfl
    · have hcount : (body.drop 7).length < 2 ^ 32 := by rw [List.length_drop]; omega
      rw [finish_ok, Result.marshal, marshal_fdec (by omega), encodeCounted, countBytes_eq hcount, List.length_drop]
      simp

/-! ### An encoded frame in the reassembler (R85) -/

/-- Every capacity holds the longest frame (R91). -/
theorem overflows_eq_false (P : Params) {n : Nat} (h : n ≤ 65541) : overflows P n = false := by
  unfold overflows
  split
  · rfl
  · next cap _ => exact decide_eq_false (not_lt.mpr (h.trans cap.atLeast))

/-- An encoded frame passes both checks of a candidate. -/
theorem candidatePasses_fenc (dest src : BitVec 16) (func : Byte) (payload : Bytes) :
    candidatePasses (fenc dest src func payload) (payload.length + 5) = true := by
  have hcovered : 3 + (payload.length + 5) = payload.length + 8 := by omega
  have hend : 5 + (payload.length + 5) = payload.length + 10 := by omega
  rw [candidatePasses, hcovered, hend, fenc_covered, fenc_checksumSlice, unBE16_be16, fenc_getD_stop]
  simp

/-- A whole candidate at the front of the buffer that passes both checks and is long enough is accepted, whatever follows. -/
theorem examine_accept {cand : Bytes} (rest : Bytes) (hlen : cand.length = lengthField cand + 6)
    (h5 : 5 ≤ lengthField cand) (hpass : candidatePasses cand (lengthField cand) = true) :
    examine (cand ++ rest) = .accept (fdec (slice cand 1 (cand.length - 3))) rest := by
  have hcand : examine cand = .accept (fdec (slice cand 1 (cand.length - 3))) [] := by
    have hend : 3 + lengthField cand = cand.length - 3 := by omega
    simp only [examine, if_neg (show ¬ cand.length < 3 by omega), ← hlen, if_neg (lt_irrefl _), List.take_length,
      List.drop_length, hpass, if_true, if_neg (not_lt.mpr h5), hend]
  rw [examine_append cand rest (by omega) hlen.ge, hcand]
  rfl

/-- An encoded frame at the front of the buffer is accepted as its operands, and parsing goes on behind it. -/
theorem onePass_fenc_append (dest src : BitVec 16) (func : Byte) (payload rest : Bytes) (h : payload.length ≤ 65530) :
    onePass (fenc dest src func payload ++ rest) =
      .accept { dest := dest, src := src, func := func, payload := payload } rest := by
  have hfield := lengthField_fenc dest src func payload h
  have hlen : (fenc dest src func payload).length = lengthField (fenc dest src func payload) + 6 := by
    rw [fenc_length, hfield]
  have hpass := candidatePasses_fenc dest src func payload
  rw [← hfield] at hpass
  have hseek : seekStart (fenc dest src func payload ++ rest) = fenc dest src func payload ++ rest := by
    rw [fenc_eq]; exact seekStart_start _
  rw [onePass, hseek, examine_accept rest hlen (by omega) hpass, fdec_fenc]

/-- The parse of an encoded frame and more bytes is the frame and the parse of those. -/
theorem parseStream_fenc_append (dest src : BitVec 16) (func : Byte) (payload rest : Bytes)
    (h : payload.length ≤ 65530) :
    parseStream (fenc dest src func payload ++ rest) =
      (parseStream rest).cons { dest := dest, src := src, func := func, payload := payload } := by
  rw [parseStream_eq, onePass_fenc_append dest src func payload rest h]

/-- A feed that fits and parses leaves the parse's buffer and answers its frames. -/
theorem feedEnding_done {P : Params} {b : Block} {chunk rest : Bytes} {frames : List Frame}
    (hfits : overflows P (b.rbuf.length + chunk.length) = false)
    (hparse : parseStream (b.rbuf ++ chunk) = .done rest frames) :
    feedEnding P b chunk = .ok (b.setRbuf rest) (.frames frames) := by
  rw [feedEnding, hfits, rbufAppend_rbuf, hparse]
  rfl

/-- Feeding an encoded frame to an empty RBUF answers that one frame and leaves the block as it was. -/
theorem feedEnding_fenc (P : Params) {b : Block} (hempty : b.rbuf = []) (dest src : BitVec 16) (func : Byte)
    (payload : Bytes) (h : payload.length ≤ 65530) :
    feedEnding P b (fenc dest src func payload) =
      .ok b (.frames [{ dest := dest, src := src, func := func, payload := payload }]) := by
  have hfits : overflows P (b.rbuf.length + (fenc dest src func payload).length) = false :=
    overflows_eq_false P (by rw [hempty, fenc_length, List.length_nil]; omega)
  have hparse : parseStream (b.rbuf ++ fenc dest src func payload) =
      .done [] [{ dest := dest, src := src, func := func, payload := payload }] := by
    have happend := parseStream_fenc_append dest src func payload [] h
    rw [List.append_nil] at happend
    rw [hempty]
    exact happend
  rw [feedEnding_done hfits hparse, ← hempty]
  rfl

/-- Settles O31: `fdec` undoes `fenc` on the covered bytes, and the one pass of the feed accepts the frame whole. -/
theorem frameRoundTrip : Obligations.FrameRoundTrip := by
  refine fun dest src func payload hlen => ⟨fdec_fenc dest src func payload, fun s hrun hempty => ?_⟩
  have hcount : payload.length < 2 ^ 32 := by omega
  rw [exec_running hrun, endingOf, feedEnding_fenc _ hempty dest src func payload hlen, finish_ok, Result.marshal,
    List.map_singleton, List.flatten_singleton, Frame.marshal_eq _ hcount, List.length_singleton,
    countBytes_eq (by decide)]
  rfl

end Sys2Proof.Machine
end

section
/-! SUPPORT. The system commands and the step (44_system.md): what RDSTAT reads, the only way out of the faulted state, and
everything a step can do. -/

namespace Sys2Proof.Machine

/-! ### STATUS as it is read (R13, R132) -/

/-- FAULT is read as it stands. -/
theorem statusRead_fault (status : Byte) : (statusRead status).getLsbD 7 = status.getLsbD 7 :=
  (BitVec.getLsbD_and ..).trans (Bool.and_true _)

/-- Bits 6:4 are read as 0. -/
theorem statusRead_reserved (status : Byte) : (statusRead status).extractLsb' 4 3 = 0 :=
  (BitVec.extractLsb'_and ..).trans BitVec.and_zero

/-- CAUSE is read as it stands. -/
theorem statusRead_cause (status : Byte) : (statusRead status).extractLsb' 0 4 = status.extractLsb' 0 4 :=
  (BitVec.extractLsb'_and ..).trans BitVec.and_allOnes

/-- A STATUS that R13 allows is 0x00 or 0x81, and is read as it stands. -/
theorem statusRead_legal {status : Byte} (h : statusLegal status = true) :
    statusRead status = 0x00 ∨ statusRead status = 0x81 :=
  (Bool.or_eq_true_iff.mp h).imp (fun h0 => congrArg statusRead (of_decide_eq_true h0))
    fun h81 => congrArg statusRead (of_decide_eq_true h81)

/-! ### NOP and RDSTAT (R131, R132) -/

/-- Settles O3: NOP is always answered, with nothing behind the status byte. -/
theorem nopAnswersOkAlways : Obligations.NopAnswersOkAlways := ⟨rfl, exec_always rfl⟩

/-- Settles O4: RDSTAT is always answered, with STATUS as it is read. -/
theorem rdstatReturnsStatus : Obligations.RdstatReturnsStatus :=
  ⟨rfl, fun s => ⟨statusRead s.block.status, exec_always rfl s, statusRead_fault _, statusRead_reserved _,
    statusRead_cause _, statusRead_legal⟩⟩

/-! ### Everything a step can do (R130, R160) -/

/-- With nothing presented the step waits. -/
theorem step_of_nil {s : State} (h : s.inbox = []) : step s = .next s := by
  obtain ⟨block, inbox, outbox⟩ := s
  cases h
  rfl

/-- The platform's reset leaves the port and writes the block's reset values; nothing is answered. -/
theorem step_of_platformReset {s : State} {rest : List HostEvent} (h : s.inbox = .platformReset :: rest) :
    step s = .next { s.withInbox rest with block := s.block.restart } := by
  obtain ⟨block, inbox, outbox⟩ := s
  cases h
  rfl

/-- A packet that spells no command leaves the port and is answered 04. -/
theorem step_of_decode_error {s : State} {p : Bytes} {rest : List HostEvent} {e : Illegal}
    (h : s.inbox = .command p :: rest) (hdecode : decode p = .error e) :
    step s = .next ((s.withInbox rest).answered s.block [0x04]) := by
  simp only [step, h, hdecode]
  rfl

/-- Settles O12: `s` is itself with its own inbox, at which the step is known. -/
theorem stepRunsTheDecodedCommand : Obligations.StepRunsTheDecodedCommand := by
  intro s p rest i hinbox hdecode
  calc step s = step (s.withInbox (.command p :: rest)) := by rw [← hinbox]; rfl
    _ = exec i (s.withInbox rest) := step_of_decode hdecode s rest

/-- Settles O7, by what has been presented: nothing, the platform's reset, a packet that spells no command, or a command,
each of whose endings is a next state. -/
theorem stepAlwaysAnswersNext : Obligations.StepAlwaysAnswersNext := by
  intro s
  rcases hinbox : s.inbox with _ | ⟨⟨p⟩ | _, rest⟩
  · exact ⟨_, step_of_nil hinbox⟩
  · cases hdecode : decode p with
    | error e => exact ⟨_, step_of_decode_error hinbox hdecode⟩
    | ok i => exact ⟨_, (stepRunsTheDecodedCommand s p rest i hinbox hdecode).trans (exec_eq i _)⟩
  · exact ⟨_, step_of_platformReset hinbox⟩

/-! ### RESET (R133) -/

/-- Of the writes open to a command only the restart takes a block out of the faulted state, and it is open to RESET alone. -/
theorem MayWrite.eq_reset {i : Instr} {b b' : Block} (h : MayWrite i b b') (hfaulted : b.faulted = true)
    (hrunning : b'.faulted = false) : i = .reset := by
  have hleft : b'.faulted ≠ true := Bool.eq_false_iff.mp hrunning
  obtain rfl | ⟨-, c, rfl⟩ | ⟨-, r, rfl⟩ | ⟨-, c, rfl⟩ | ⟨hreset, -⟩ := h
  · exact absurd hfaulted hleft
  · exact absurd hfaulted hleft
  · exact absurd hfaulted hleft
  · exact absurd (raiseFault_faulted b c) hleft
  · exact hreset

/-- Settles O5: RESET is always answered, its ending restarts the block as the platform's reset does, and no other command
may write that. -/
theorem resetCommandRestoresEverything : Obligations.ResetCommandRestoresEverything :=
  ⟨rfl, exec_always rfl, fun _ _ hinbox => ⟨_, step_of_platformReset hinbox, rfl⟩,
    fun _ _ _ hfaulted hexec hrunning => (exec_mayWrite hexec).eq_reset hfaulted hrunning⟩

end Sys2Proof.Machine
end

section
/-! SUPPORT. The value codec: rounding, scaling in both directions, the bounds of what is decoded, and what VENC and VDEC answer
type by type (42_value.md). -/

namespace Sys2Proof.Machine

/-! ### Rounding (R101, R129) -/

/-- The rounded quotient is within half of the quotient. -/
theorem rnd_within_half (p : Int) {q : Int} (tie : RoundTie) (h : 0 < q) :
    2 * (p - q * rnd p q tie) ≤ q ∧ -q ≤ 2 * (p - q * rnd p q tie) := by
  obtain ⟨f, r, rfl, hr0, hrq, -, hcase⟩ := rnd_cases p q tie h
  have hup : q * (f + 1) = q * f + q := mul_add_one q f
  obtain ⟨hr, e⟩ | ⟨hr, e⟩ | ⟨hr, e⟩ := hcase
  · rw [e]; omega
  · rw [e, hup]; omega
  · rw [e]
    cases tie
    · dsimp only; split
      · omega
      · rw [hup]; omega
    · dsimp only; split
      · rw [hup]; omega
      · omega

/-- A quotient at exactly half lies between f and f + 1, and the tie rule says which of the two is taken. -/
theorem rnd_of_tie {p q : Int} {tie : RoundTie} (h : 0 < q)
    (htie : 2 * (p - q * rnd p q tie) = q ∨ 2 * (p - q * rnd p q tie) = -q) :
    ∃ f, 2 * p = q * (2 * f + 1) ∧
      (tie = .halfEven → rnd p q tie = if f % 2 = 0 then f else f + 1) ∧
      (tie = .halfAway → rnd p q tie = if 0 < p then f + 1 else f) := by
  obtain ⟨f, r, rfl, hr0, hrq, -, hcase⟩ := rnd_cases p q tie h
  have hup : q * (f + 1) = q * f + q := mul_add_one q f
  obtain ⟨hr, e⟩ | ⟨hr, e⟩ | ⟨hr, e⟩ := hcase
  · rw [e] at htie; omega
  · rw [e, hup] at htie; omega
  · refine ⟨f, by rw [mul_add, hr, mul_add_one, mul_left_comm], ?_, ?_⟩ <;> rintro rfl <;> exact e

/-- At exactly half, HALF_EVEN gives the even neighbour. -/
theorem rnd_halfEven_even {p q : Int} (h : 0 < q)
    (htie : 2 * (p - q * rnd p q .halfEven) = q ∨ 2 * (p - q * rnd p q .halfEven) = -q) :
    rnd p q .halfEven % 2 = 0 := by
  obtain ⟨f, -, heven, -⟩ := rnd_of_tie h htie
  rw [heven rfl]
  split <;> omega

/-- At exactly half, HALF_AWAY gives the neighbour farther from zero. -/
theorem rnd_halfAway_farther {p q : Int} (h : 0 < q)
    (htie : 2 * (p - q * rnd p q .halfAway) = q ∨ 2 * (p - q * rnd p q .halfAway) = -q) :
    (0 < p → p < q * rnd p q .halfAway) ∧ (p < 0 → q * rnd p q .halfAway < p) := by
  obtain ⟨f, hp, -, haway⟩ := rnd_of_tie h htie
  have hhalf : q * (2 * f + 1) = 2 * (q * f) + q := by rw [mul_add_one, mul_left_comm]
  have hup : q * (f + 1) = q * f + q := mul_add_one q f
  rw [haway rfl]
  refine ⟨fun hpos => ?_, fun hneg => ?_⟩
  · rw [if_pos hpos, hup]; omega
  · rw [if_neg (by omega)]; omega

/-- Settles O32, by the two bounds and the rule of each tie. -/
theorem rndIsNearestWithTieRule : Obligations.RndIsNearestWithTieRule := by
  intro p q tie h
  obtain ⟨hup, hlow⟩ := rnd_within_half p tie h
  refine ⟨hup, hlow, fun htie => ⟨?_, ?_⟩⟩
  · rintro rfl; exact rnd_halfEven_even h htie
  · rintro rfl; exact rnd_halfAway_farther h htie

/-- Settles O33. The sum of the two rounded values is at most 1 in size; were it 1 or -1, both would be ties on the same side,
which the tie rule excludes: two even numbers do not sum to an odd one, and the values farther from zero lie on opposite sides. -/
theorem rndIsSymmetric : Obligations.RndIsSymmetric := by
  intro p q tie h
  obtain ⟨hup, hlow, htie⟩ := rndIsNearestWithTieRule p q tie h
  obtain ⟨hup', hlow', htie'⟩ := rndIsNearestWithTieRule (-p) q tie h
  generalize rnd p q tie = a at *
  generalize rnd (-p) q tie = b at *
  have hsum : q * (a + b) = q * a + q * b := mul_add q a b
  have hle : a + b ≤ 1 := Int.le_of_mul_le_mul_left (show q * (a + b) ≤ q * 1 by omega) h
  have hge : -1 ≤ a + b := Int.le_of_mul_le_mul_left (show q * -1 ≤ q * (a + b) by omega) h
  by_contra hne
  have hone : a + b = 1 ∨ a + b = -1 := by omega
  have hties : 2 * (p - q * a) = 2 * (-p - q * b) ∧ (2 * (p - q * a) = q ∨ 2 * (p - q * a) = -q) := by
    obtain e | e := hone <;> rw [e] at hsum <;> omega
  obtain ⟨hsame, ha⟩ := hties
  obtain ⟨heven, haway⟩ := htie ha
  obtain ⟨heven', haway'⟩ := htie' (by omega)
  cases tie with
  | halfEven =>
    have := heven rfl
    have := heven' rfl
    omega
  | halfAway =>
    obtain ⟨hpos, hneg⟩ := haway rfl
    obtain ⟨hpos', hneg'⟩ := haway' rfl
    have hp : p = 0 := by omega
    subst hp
    have hmul : q * (2 * a) = 2 * (q * a) := mul_left_comm q 2 a
    have hodd : 2 * a = -1 ∨ 2 * a = 1 := by
      refine ha.imp (fun e => ?_) (fun e => ?_) <;> refine Int.eq_of_mul_eq_mul_left h.ne' ?_ <;> rw [hmul] <;> omega
    omega

/-! ### Scaling by the decimal exponent (R102) -/

section Scaling
variable (P : Params) (x exp : Int)

/-- Encoding multiplies exactly where k is at most -2. -/
theorem scaleEnc_exact (h : scaleK P exp ≤ -2) : scaleEnc P x exp = x * pow10 (-scaleK P exp - 2) := by
  simp only [scaleEnc, if_pos h]

/-- Encoding rounds a quotient where k is at least -1. -/
theorem scaleEnc_rounds (h : -1 ≤ scaleK P exp) :
    scaleEnc P x exp = rnd x (pow10 (scaleK P exp + 2)) P.roundTie := by
  simp only [scaleEnc, if_neg (show ¬ scaleK P exp ≤ -2 by omega)]

/-- Decoding multiplies exactly where k is at least -2. -/
theorem scaleDec_exact (h : -2 ≤ scaleK P exp) : scaleDec P x exp = x * pow10 (scaleK P exp + 2) := by
  simp only [scaleDec, if_pos h]

/-- Decoding rounds a quotient where k is at most -3. -/
theorem scaleDec_rounds (h : scaleK P exp ≤ -3) :
    scaleDec P x exp = rnd x (pow10 (-scaleK P exp - 2)) P.roundTie := by
  simp only [scaleDec, if_neg (show ¬ -2 ≤ scaleK P exp by omega)]

end Scaling

/-- Settles O34: k is the exponent with the sign of SCALE_SIGN, and each branch is a branch of the scaling. -/
theorem scalingIsExactOrNearest : Obligations.ScalingIsExactOrNearest := by
  intro P x exp _
  rw [← scaleK_eq P exp]
  exact ⟨scaleEnc_exact P x exp, scaleEnc_rounds P x exp, scaleDec_exact P x exp, scaleDec_rounds P x exp⟩

/-! ### The bounds of what is decoded (R103, R129) -/

/-- 10^n grows with n. -/
theorem pow10_mono {m n : Int} (h : m ≤ n) : pow10 m ≤ pow10 n :=
  pow_le_pow_right₀ (by decide) (Int.toNat_le_toNat h)

/-- Rounding a quotient leaves the bounds of the dividend. -/
theorem rnd_bounds {p q B : Int} (tie : RoundTie) (h : 0 < q) (hB : 0 ≤ B) (hlow : -B ≤ p) (hup : p ≤ B) :
    -B ≤ rnd p q tie ∧ rnd p q tie ≤ B := by
  obtain ⟨h1, h2⟩ := rnd_within_half p tie h
  have hqB : B ≤ q * B := le_mul_of_one_le_left hB h
  have hmul : q * (B + 1) = q * B + q := mul_add_one q B
  constructor <;> by_contra hout
  · have := Int.mul_le_mul_of_nonneg_left (show rnd p q tie ≤ -(B + 1) by omega) h.le
    rw [mul_neg] at this
    omega
  · have := Int.mul_le_mul_of_nonneg_left (show B + 1 ≤ rnd p q tie by omega) h.le
    omega

/-- With an exponent from -7 to 7, k is from -7 to 7 too. -/
theorem scaleK_bounds (P : Params) {exp : Int} (hlow : -7 ≤ exp) (hup : exp ≤ 7) :
    -7 ≤ scaleK P exp ∧ scaleK P exp ≤ 7 := by
  rw [scaleK_eq]
  split <;> omega

/-- No type is wider than four bytes. -/
theorem IntType.width_le (T : IntType) : T.width ≤ 4 := by cases T <;> decide

/-- A type's range lies between -2^W and 2^W. -/
theorem IntType.range_bits (T : IntType) : -2 ^ T.bits ≤ T.lo ∧ T.hi < 2 ^ T.bits := by cases T <;> decide

/-- What is read from the wire lies between -2^32 and 2^32. -/
theorem rawOf_lt (T : IntType) {data : Bytes} (h : T.width ≤ data.length) :
    -(2 ^ 32) ≤ rawOf T data ∧ rawOf T data ≤ 2 ^ 32 := by
  obtain ⟨hlow, hup⟩ := rawOf_bounds T data h
  obtain ⟨hlo, hhi⟩ := T.range_bits
  have hbits : T.bits ≤ 32 := Nat.mul_le_mul_left 8 T.width_le
  have hpow : (2 : Int) ^ T.bits ≤ 2 ^ 32 := pow_le_pow_right₀ (by decide) hbits
  omega

/-- Scaling a wire integer stays below 2^32 * 10^9. -/
theorem scaleDec_bounds (P : Params) {raw exp : Int} (hlow : -7 ≤ exp) (hup : exp ≤ 7)
    (hraw : -(2 ^ 32) ≤ raw ∧ raw ≤ 2 ^ 32) :
    -(2 ^ 32 * 10 ^ 9) ≤ scaleDec P raw exp ∧ scaleDec P raw exp ≤ 2 ^ 32 * 10 ^ 9 := by
  obtain ⟨hklow, hkup⟩ := scaleK_bounds P hlow hup
  obtain ⟨hrlow, hrup⟩ := hraw
  by_cases hk : -2 ≤ scaleK P exp
  · rw [scaleDec_exact P raw exp hk]
    have hpos := pow10_pos (scaleK P exp + 2)
    have hpow : pow10 (scaleK P exp + 2) ≤ 10 ^ 9 := pow10_mono (n := 9) (by omega)
    rw [← abs_le, abs_mul]
    exact mul_le_mul (abs_le.mpr ⟨hrlow, hrup⟩) ((abs_of_pos hpos).trans_le hpow) (abs_nonneg _) (by decide)
  · rw [scaleDec_rounds P raw exp (by omega)]
    obtain ⟨h1, h2⟩ := rnd_bounds P.roundTie (pow10_pos (-scaleK P exp - 2)) (by decide) hrlow hrup
    omega

/-- Settles O35: 100 times a wire integer, or a wire integer scaled by at most 10^9. -/
theorem decodedNumbersFitSixtyFourBits : Obligations.DecodedNumbersFitSixtyFourBits := by
  intro P T exp data hlow hup hlen
  have hraw := rawOf_lt T hlen
  rw [vdecInt]
  split
  · omega
  · have := scaleDec_bounds P hlow hup hraw
    omega

/-! ### What a VENC and a VDEC answer (R48, R105, R116) -/

/-- The answer to a VENC whose rule gives `x`. -/
def encodedAnswer : Except Error Bytes → Bytes
  | .ok d => 0x00 :: encodeCounted d
  | .error e => [e.code]

/-- The answer to a VDEC whose rule gives `x`. -/
def decodedAnswer : Except Error Value → Bytes
  | .ok v => 0x00 :: encodeValue v
  | .error e => [e.code]

/-- A VENC on a running block answers what its rule gives and leaves the block as it was. -/
theorem exec_encodes {s : State} (hrun : s.running) {i : Instr} {x : Except Error Bytes}
    (h : endingOf i s = vencEnding s x) : exec i s = .next (s.answered s.block (encodedAnswer x)) := by
  rw [exec_vencEnding hrun h]
  cases x <;> rfl

/-- A VDEC on a running block answers what its rule gives and leaves the block as it was. -/
theorem exec_decodes {s : State} (hrun : s.running) {i : Instr} {x : Except Error Value}
    (h : endingOf i s = vdecEnding s x) : exec i s = .next (s.answered s.block (decodedAnswer x)) := by
  rw [exec_vdecEnding hrun h]
  cases x <;> rfl

/-- The exponent check, on the byte read as signed. -/
theorem ite_expAdmitted {α : Type} (e : Byte) (a b : α) :
    (if expAdmitted (expOf e) = true then a else b) = if e.toInt < -7 ∨ 7 < e.toInt then b else a := by
  by_cases h : -7 ≤ e.toInt ∧ e.toInt ≤ 7
  · rw [if_pos ((expAdmitted_iff e).mpr h), if_neg (by omega)]
  · rw [if_neg (mt (expAdmitted_iff e).mp h), if_pos (by omega)]

/-! ### The integer types (R106 to R112, R117, R121 to R126) -/

/-- A number of k bytes as a counted result. -/
theorem encodeCounted_leBytes {n : Nat} (h : n < 2 ^ 32) (v : Nat) :
    encodeCounted (leBytes n v) = leBytes 4 n ++ leBytes n v := by
  rw [encodeCounted, leBytes_length, countBytes_eq h]

/-- Two's complement of an integer in the range of its type adds 2^W to a negative one. -/
theorem packed_toNat (T : IntType) {r : Int} (h : T.lo ≤ r ∧ r ≤ T.hi) :
    (r % 2 ^ T.bits).toNat = (if r < 0 then r + 2 ^ (8 * T.width) else r).toNat := by
  obtain ⟨hlo, hhi⟩ := T.range_bits
  rw [show 8 * T.width = T.bits from rfl]
  split
  · rw [← Int.add_emod_right, Int.emod_eq_of_lt] <;> omega
  · rw [Int.emod_eq_of_lt] <;> omega

/-- The integer that a VENC of `c` packs: whole numbers at exp = 0, the scaled hundredths otherwise. -/
def encodedInt (P : Params) (exp c : Int) : Int := if exp = 0 then c / 100 else scaleEnc P c exp

/-- The rule of an integer type: no fraction at exp = 0, then the range, then two's complement. -/
theorem vencInt_eq (P : Params) (T : IntType) (exp c : Int) :
    vencInt P T exp c =
      if exp = 0 ∧ c % 100 ≠ 0 then .error .encodeError
      else if encodedInt P exp c < T.lo ∨ T.hi < encodedInt P exp c then .error .encodeError
      else .ok (leBytes T.width (encodedInt P exp c % 2 ^ T.bits).toNat) := rfl

/-- VENC of a number to an integer type: the exponent, then the type's own rule. -/
theorem vencIntType_num (P : Params) (T : IntType) (exp : Byte) (c : BitVec 64) :
    vencIntType P T exp (.num c) =
      if exp.toInt < -7 ∨ 7 < exp.toInt then .error .refused
      else vencInt P T exp.toInt c.toInt := by
  rw [vencIntType, ite_expAdmitted, expOf_eq_toInt]

/-- VENC to an integer type takes numbers only. -/
theorem vencIntType_mismatch (P : Params) (T : IntType) (exp : Byte) {v : Value} (h : ∀ c, v ≠ .num c) :
    vencIntType P T exp v = .error .encodeError := by
  cases v with
  | num c => exact absurd rfl (h c)
  | bool | f32 | str => rfl

/-- The answer of that rule. -/
theorem encodedAnswer_vencInt (P : Params) (T : IntType) (exp c : Int) :
    encodedAnswer (vencInt P T exp c) =
      if exp = 0 ∧ c % 100 ≠ 0 then [0x01]
      else if encodedInt P exp c < T.lo ∨ T.hi < encodedInt P exp c then [0x01]
      else [0x00] ++ leBytes 4 T.width ++
        leBytes T.width (if encodedInt P exp c < 0 then encodedInt P exp c + 2 ^ (8 * T.width) else encodedInt P exp c).toNat := by
  have hwidth := T.width_le
  rw [vencInt_eq, apply_ite encodedAnswer, apply_ite encodedAnswer]
  split
  · rfl
  · split
    · rfl
    · rw [packed_toNat T (by omega), encodedAnswer, encodeCounted_leBytes (by omega)]
      rfl

/-- Settles O36: the widths and ranges are those of the types, and each check of the command has its answer. -/
theorem vencIntegerResult : Obligations.VencIntegerResult := by
  refine ⟨rfl, fun T exp s hrun => ⟨fun v hv => ?_, fun c => ?_⟩⟩
  · rw [exec_encodes hrun (endingOf_venc T exp v s), vencIntType_mismatch _ T exp hv]
    rfl
  · rw [exec_encodes hrun (endingOf_venc T exp _ s), vencIntType_num, apply_ite encodedAnswer, encodedAnswer_vencInt]
    rfl

/-- The integer on the wire is the leading bytes, less 2^W when signed and the top bit is set. -/
theorem rawOf_eq (T : IntType) (data : Bytes) :
    rawOf T data =
      let u : Int := unLE (data.take T.width)
      if T.signed = true ∧ 2 ^ (8 * T.width - 1) ≤ u then u - 2 ^ (8 * T.width) else u := by
  have hslice : slice data 0 T.width = data.take T.width := rfl
  rw [rawOf, hslice, sext, IntType.bits]
  generalize unLE (data.take T.width) = u
  have hle : (2 : Int) ^ (8 * T.width - 1) ≤ u ↔ ¬ u < 2 ^ (8 * T.width - 1) := by rw [not_lt]; exact_mod_cast Iff.rfl
  by_cases hs : T.signed = true <;> by_cases hlt : u < 2 ^ (8 * T.width - 1) <;> simp [hs, hle, hlt]

/-- Settles O42: length before exponent, then 100 times the wire integer, or the wire integer scaled. -/
theorem vdecIntegerResult : Obligations.VdecIntegerResult := by
  refine ⟨rfl, fun T exp data s hrun => ?_⟩
  rw [exec_decodes hrun (endingOf_vdec T exp data s), vdecIntType, ite_expAdmitted, apply_ite decodedAnswer,
    apply_ite decodedAnswer, expOf_eq_toInt, vdecInt, rawOf_eq]
  rfl

/-! ### BOOL, FLOAT and STRING (R113 to R115, R118 to R120) -/

/-- VENC to BOOL takes truth values only. -/
theorem vencBool_mismatch (exp : Byte) {v : Value} (h : ∀ t, v ≠ .bool t) : vencBool exp v = .error .encodeError := by
  cases v with
  | bool t => exact absurd rfl (h t)
  | num | f32 | str => rfl

/-- VENC to FLOAT takes patterns only. -/
theorem vencFloat_mismatch (exp : Byte) {v : Value} (h : ∀ p, v ≠ .f32 p) : vencFloat exp v = .error .encodeError := by
  cases v with
  | f32 p => exact absurd rfl (h p)
  | num | bool | str => rfl

/-- VENC to STRING takes texts only. -/
theorem vencString_mismatch (exp : Byte) {v : Value} (h : ∀ text, v ≠ .str text) :
    vencString exp v = .error .encodeError := by
  cases v with
  | str text => exact absurd rfl (h text)
  | num | bool | f32 => rfl

/-- The answer with a result of one byte. -/
theorem encodedAnswer_byte (b : Byte) : encodedAnswer (.ok [b]) = [0x00, 0x01, 0x00, 0x00, 0x00, b] := by
  rw [encodedAnswer, encodeCounted, List.length_singleton, countBytes_eq (by decide)]
  rfl

/-- Settles O37: the exponent is checked once the kind fits. -/
theorem vencBoolResult : Obligations.VencBoolResult := by
  refine fun exp s hrun => ⟨fun t => ⟨rfl, ?_⟩, fun v hv => ?_⟩
  · rw [exec_encodes (x := vencBool exp (.bool t)) hrun rfl, vencBool, expOf_eq_toInt, apply_ite encodedAnswer,
      encodedAnswer_byte, ite_not]
    rfl
  · rw [exec_encodes (x := vencBool exp v) hrun rfl, vencBool_mismatch exp hv]
    rfl

/-- Settles O39: the result is the text and its terminator, behind the count of both. -/
theorem vencStringResult : Obligations.VencStringResult := by
  refine fun exp s hrun => ⟨fun text => ⟨countBytes (text.length + 1), ?_, countBytes_length _, countBytes_eq⟩, fun v hv => ?_⟩
  · rw [exec_encodes (x := vencString exp (.str text)) hrun rfl, vencString, encodedAnswer, encodeCounted,
      List.length_append]
    simp
  · rw [exec_encodes (x := vencString exp v) hrun rfl, vencString_mismatch exp hv]
    rfl

/-- A type code of 9 to 255 names no declared type. -/
theorem declTypeOf_unknown {type : Byte} (h : 9 ≤ type.toNat) : declTypeOf type = none := by
  obtain ⟨n, hn⟩ := Nat.exists_eq_add_of_le' h
  rw [declTypeOf, hn]
  rfl

/-- Settles O40: both rules look at the type first. -/
theorem unknownTypeIsAnError : Obligations.UnknownTypeIsAnError := by
  refine fun type exp s htype hrun => ⟨fun value => ?_, fun data => ?_⟩
  · rw [exec_encodes (x := vencAny Config.params type exp value) hrun rfl, vencAny, declTypeOf_unknown htype]
    rfl
  · rw [exec_decodes (x := vdecAny Config.params type exp data) hrun rfl, vdecAny, declTypeOf_unknown htype]
    rfl

/-- Settles O43: a first byte is needed, then the exponent is checked. -/
theorem vdecBoolResult : Obligations.VdecBoolResult := by
  refine fun exp s hrun => ⟨exec_decodes (x := vdecBool exp []) hrun rfl, fun b rest => ?_⟩
  rw [exec_decodes (x := vdecBool exp (b :: rest)) hrun rfl, vdecBool, expOf_eq_toInt, apply_ite decodedAnswer, ite_not]
  by_cases hb : b = 0x00 <;> simp [decodedAnswer, encodeValue, hb, Error.code]

/-- A pattern read from four bytes is written as those bytes. -/
theorem leBytes_pattern {d : Bytes} (h : d.length = 4) : leBytes 4 (BitVec.ofNat 32 (unLE d)).toNat = d := by
  have hlt : unLE d < 2 ^ 32 := (unLE_lt d).trans_eq (by rw [h]; rfl)
  rw [BitVec.toNat_ofNat, Nat.mod_eq_of_lt hlt, ← h, leBytes_unLE]

/-- The leading four bytes one by one. -/
theorem slice_four {data : Bytes} (h : 4 ≤ data.length) :
    slice data 0 4 = [data.getD 0 0, data.getD 1 0, data.getD 2 0, data.getD 3 0] := by
  match data, h with
  | a :: b :: c :: d :: rest, _ => rfl

/-- Settles O44: length, the pattern as it stands at exp = 0, the exponent, and FLOAT_SCALE, in this order. -/
theorem vdecFloatResult : Obligations.VdecFloatResult := by
  intro exp data s hrun
  rw [exec_decodes (x := vdecFloat Config.params exp data) hrun rfl, vdecFloat]
  by_cases hlen : data.length < 4
  · rw [if_pos hlen, if_pos hlen]; rfl
  rw [if_neg hlen, if_neg hlen]
  by_cases hexp : exp.toInt = 0
  · have hslice := slice_length data 0 4 (not_lt.mp hlen)
    rw [if_pos hexp, if_pos (by rw [expOf_eq_toInt, hexp]), decodedAnswer, encodeValue, leBytes_pattern hslice,
      slice_four (not_lt.mp hlen)]
  rw [if_neg hexp, if_neg (by rwa [expOf_eq_toInt]), ite_expAdmitted, apply_ite decodedAnswer, expOf_eq_toInt, scaleK_eq]
  cases Config.params.floatScale <;> rfl

/-! ### Round trips (R127) -/

/-- What a VENC to an integer type accepts, and the bytes it then gives. -/
theorem vencIntType_ok {P : Params} {T : IntType} {exp : Byte} {c : BitVec 64} {d : Bytes}
    (h : vencIntType P T exp (.num c) = .ok d) :
    (-7 ≤ exp.toInt ∧ exp.toInt ≤ 7) ∧ (exp.toInt = 0 → c.toInt % 100 = 0) ∧
    (T.lo ≤ encodedInt P exp.toInt c.toInt ∧ encodedInt P exp.toInt c.toInt ≤ T.hi) ∧
    d = leBytes T.width (encodedInt P exp.toInt c.toInt % 2 ^ T.bits).toNat := by
  rw [vencIntType_num] at h
  split at h
  · cases h
  next hexp =>
    rw [vencInt_eq] at h
    split at h
    · cases h
    next hwhole =>
      split at h
      · cases h
      next hrange =>
        cases h
        exact ⟨by omega, by omega, by omega, rfl⟩

/-- What a VENC to an integer type gives when every check passes. -/
theorem vencIntType_eq_ok {P : Params} {T : IntType} {exp : Byte} {c : BitVec 64}
    (hexp : -7 ≤ exp.toInt ∧ exp.toInt ≤ 7) (hwhole : exp.toInt = 0 → c.toInt % 100 = 0)
    (hrange : T.lo ≤ encodedInt P exp.toInt c.toInt ∧ encodedInt P exp.toInt c.toInt ≤ T.hi) :
    vencIntType P T exp (.num c) = .ok (leBytes T.width (encodedInt P exp.toInt c.toInt % 2 ^ T.bits).toNat) := by
  rw [vencIntType_num, if_neg (by omega), vencInt_eq, if_neg (by omega), if_neg (by omega)]

/-- What a VDEC of an integer type gives: the decoded hundredths, which fit the carrier. -/
theorem vdecIntType_eq_ok (P : Params) {T : IntType} {exp : Byte} {d : Bytes} (hlen : T.width ≤ d.length)
    (hexp : -7 ≤ exp.toInt ∧ exp.toInt ≤ 7) :
    ∃ c : BitVec 64, vdecIntType P T exp d = .ok (.num c) ∧ c.toInt = vdecInt P T exp.toInt d := by
  refine ⟨BitVec.ofInt 64 (vdecInt P T exp.toInt d), ?_, ?_⟩
  · rw [vdecIntType, if_neg (not_lt.mpr hlen), ite_expAdmitted, if_neg (by omega), expOf_eq_toInt]
  · obtain ⟨hlow, hup⟩ := decodedNumbersFitSixtyFourBits P T exp.toInt d hexp.1 hexp.2 hlen
    exact BitVec.toInt_ofInt_eq_self (by decide) hlow.le hup

/-- Decoding what an encode packed: the hundredths themselves where encoding is exact, a multiple of the nearest integer
where it rounds. -/
theorem vdecInt_of_encoded (P : Params) (T : IntType) {exp c : Int} {d : Bytes} (hwhole : exp = 0 → c % 100 = 0)
    (hraw : rawOf T d = encodedInt P exp c) :
    vdecInt P T exp d =
      if exp = 0 ∨ scaleK P exp ≤ -2 then c
      else pow10 (scaleK P exp + 2) * rnd c (pow10 (scaleK P exp + 2)) P.roundTie := by
  rw [vdecInt, hraw, encodedInt]
  by_cases hexp : exp = 0
  · rw [if_pos hexp, if_pos hexp, if_pos (.inl hexp)]
    have := hwhole hexp
    omega
  rw [if_neg hexp, if_neg hexp]
  by_cases hk : scaleK P exp ≤ -2
  · rw [if_pos (.inr hk), scaleEnc_exact P c exp hk]
    by_cases h2 : scaleK P exp = -2
    · rw [scaleDec_exact P _ exp h2.ge, h2]
      simp [pow10]
    · rw [scaleDec_rounds P _ exp (by omega), rnd_mul _ _ _ (pow10_pos _)]
  · rw [if_neg (by omega), scaleEnc_rounds P c exp (by omega), scaleDec_exact P _ exp (by omega), mul_comm]

/-- Encoding what was decoded packs the wire integer again, where decoding is exact. -/
theorem encodedInt_of_decoded (P : Params) (T : IntType) {exp : Int} (d : Bytes) (hk : -2 ≤ scaleK P exp) :
    encodedInt P exp (vdecInt P T exp d) = rawOf T d := by
  rw [vdecInt, encodedInt]
  by_cases hexp : exp = 0
  · rw [if_pos hexp, if_pos hexp]; omega
  rw [if_neg hexp, if_neg hexp, scaleDec_exact P _ exp hk]
  by_cases h2 : scaleK P exp = -2
  · rw [scaleEnc_exact P _ exp h2.le, h2]
    simp [pow10]
  · rw [scaleEnc_rounds P _ exp (by omega), rnd_mul _ _ _ (pow10_pos _)]

/-- Decoding the bytes of an encoded number gives it back, or the multiple of 10^(k+2) nearest to it. -/
theorem integer_decode_encode {P : Params} {T : IntType} {exp : Byte} {c : BitVec 64} {d : Bytes}
    (h : vencIntType P T exp (.num c) = .ok d) :
    ∃ c' : BitVec 64, vdecIntType P T exp d = .ok (.num c') ∧
      (exp.toInt = 0 ∨ scaleK P exp.toInt ≤ -2 → c' = c) ∧
      (exp.toInt ≠ 0 → -1 ≤ scaleK P exp.toInt →
        c'.toInt = pow10 (scaleK P exp.toInt + 2) * rnd c.toInt (pow10 (scaleK P exp.toInt + 2)) P.roundTie) := by
  obtain ⟨hexp, hwhole, hrange, rfl⟩ := vencIntType_ok h
  obtain ⟨c', hdec, hc'⟩ := vdecIntType_eq_ok P (T := T) (leBytes_length T.width _).ge hexp
  rw [vdecInt_of_encoded P T hwhole (rawOf_pack T _ hrange)] at hc'
  refine ⟨c', hdec, fun hexact => ?_, fun hne hk => ?_⟩
  · rw [if_pos hexact] at hc'
    exact BitVec.eq_of_toInt_eq hc'
  · rw [if_neg (by omega)] at hc'
    exact hc'

/-- Encoding the number decoded from exactly its bytes gives the bytes back, where decoding is exact. -/
theorem integer_encode_decode {P : Params} {T : IntType} {exp : Byte} {d : Bytes} (hlen : d.length = T.width)
    (hexp : -7 ≤ exp.toInt ∧ exp.toInt ≤ 7) (hk : -2 ≤ scaleK P exp.toInt) :
    ∃ v, vdecIntType P T exp d = .ok v ∧ vencIntType P T exp v = .ok d := by
  obtain ⟨c, hdec, hc⟩ := vdecIntType_eq_ok P hlen.ge hexp
  have hint : encodedInt P exp.toInt c.toInt = rawOf T d := by rw [hc, encodedInt_of_decoded P T d hk]
  refine ⟨.num c, hdec, ?_⟩
  rw [vencIntType_eq_ok hexp (fun h0 => ?_) (by rw [hint]; exact rawOf_bounds T d hlen.ge), hint, pack_rawOf T d hlen]
  rw [hc, vdecInt, if_pos h0]
  omega

end Sys2Proof.Machine
end

section
/-! SUPPORT. The statements whose proofs rest on the sections above: the platform's reset and the faulted state, the rest of the
value codec, the reassembler, and the invariant of the block. -/

namespace Sys2Proof.Machine

/-! ### The platform's reset and the faulted state (R149, R160) -/

/-- Settles O2: both resets restart the block, and the restarted block is the reset block. -/
theorem platformResetActsAsReset : Obligations.PlatformResetActsAsReset :=
  ⟨fun s _ hinbox => ⟨_, _, step_of_platformReset hinbox, exec_always rfl s, rfl, rfl⟩, fun _ => step_of_nil⟩

/-- STATUS of a faulted block is read as FAULT and CAUSE. -/
theorem statusRead_faulted {status : Byte} (h : statusFault status = true) :
    statusRead status = 0x80 ||| (status.extractLsb' 0 4).zeroExtend 8 := by
  apply BitVec.eq_of_getLsbD_eq
  intro i hi
  have h7 : status.getLsbD 7 = true := h
  interval_cases i <;> simp [statusRead, h7]

/-- The commands that a faulted block turns away are all but NOP, RDSTAT and RESET. -/
theorem answersWhenFaulted_false {i : Instr} (hnop : i ≠ .nop) (hrdstat : i ≠ .rdstat) (hreset : i ≠ .reset) :
    answersWhenFaulted i = false := by
  cases i with
  | nop => exact absurd rfl hnop
  | rdstat => exact absurd rfl hrdstat
  | reset => exact absurd rfl hreset
  | _ => rfl

/-- Settles O6: the three commands that are always answered end by their own rules, every other is answered with the stored
cause, and no command but RESET may clear FAULT. -/
theorem faultedBlockAnswersOnlyItsCause : Obligations.FaultedBlockAnswersOnlyItsCause := by
  refine fun s hfaulted => ⟨exec_always rfl s, ?_, exec_always rfl s, fun i hnop hrdstat hreset => ?_,
    fun i t hi hexec => ?_, fun hinbox t hstep => ?_⟩
  · rw [← statusRead_faulted hfaulted]
    exact exec_always rfl s
  · exact exec_faulted hfaulted (answersWhenFaulted_false hnop hrdstat hreset)
  · by_contra hcleared
    exact hi ((exec_mayWrite hexec).eq_reset hfaulted (Bool.eq_false_iff.mpr hcleared))
  · rw [step_of_nil hinbox] at hstep
    cases hstep
    exact hfaulted

/-! ### FLOAT and STRING, and the round trips of the value codec (R114, R120, R127) -/

/-- Settles O38: the pattern's four bytes, least significant first. -/
theorem vencFloatResult : Obligations.VencFloatResult := by
  refine fun exp s hrun => ⟨fun p => ?_, fun v hv => ?_⟩
  · rw [exec_encodes (x := vencFloat exp (.f32 p)) hrun rfl, vencFloat, encodedAnswer, encodeCounted_leBytes (by decide),
      leBytes_four]
    rfl
  · rw [exec_encodes (x := vencFloat exp v) hrun rfl, vencFloat_mismatch exp hv]
    rfl

/-- A text with no terminator behind it is taken whole. -/
theorem takeWhile_text_end {text : Bytes} (h : (0x00 : Byte) ∉ text) : text.takeWhile (fun b => b != 0x00) = text :=
  List.takeWhile_eq_self_iff.mpr fun _ hb => bne_iff_ne.mpr fun e => h (e ▸ hb)

/-- Settles O45: the bytes before the first terminator, or all of them. -/
theorem vdecStringResult : Obligations.VdecStringResult := by
  intro exp text rest s hrun h0 hlen
  refine ⟨?_, ?_⟩
  · rw [exec_decodes (x := vdecString exp (text ++ 0x00 :: rest)) hrun rfl, vdecString, takeWhile_text h0, decodedAnswer,
      encodeValue, countBytes_eq hlen]
    rfl
  · rw [exec_decodes (x := vdecString exp text) hrun rfl, vdecString, takeWhile_text_end h0, decodedAnswer, encodeValue,
      countBytes_eq hlen]
    rfl

/-- A pattern read from its own four bytes. -/
theorem vdecFloat_leBytes (P : Params) (p : BitVec 32) : vdecFloat P 0 (leBytes 4 p.toNat) = .ok (.f32 p) := by
  have hslice : slice (leBytes 4 p.toNat) 0 4 = leBytes 4 p.toNat := rfl
  have hread : unLE (leBytes 4 p.toNat) = p.toNat := by rw [unLE_leBytes, Nat.mod_eq_of_lt (by simpa using p.isLt)]
  rw [vdecFloat, if_neg (by simp), if_pos (by decide), hslice, hread, BitVec.ofNat_toNat, BitVec.setWidth_eq]

/-- Settles O46, type by type; the integers go through the integer that is packed. -/
theorem valueRoundTrips : Obligations.ValueRoundTrips := by
  refine ⟨fun P T exp c d henc => ?_, fun P T exp d hlen hlow hup hk => ?_, fun P p => ?_, fun exp text h0 => ?_, fun t => ?_⟩
  · obtain ⟨c', hdec, hexact, hround⟩ := integer_decode_encode henc
    rw [← scaleK_eq P exp.toInt]
    refine ⟨c', hdec, fun h0 => hexact (.inl h0), fun _ hk => hexact (.inr hk), fun hne hk => ?_⟩
    have hc' := hround hne hk
    have hnear := rnd_within_half c.toInt P.roundTie (pow10_pos (scaleK P exp.toInt + 2))
    rw [← hc'] at hnear
    simp only [pow10] at hc' hnear
    exact ⟨hc', by omega, by omega⟩
  · rw [← scaleK_eq P exp.toInt] at hk
    exact integer_encode_decode hlen ⟨hlow, hup⟩ hk
  · exact ⟨leBytes 4 p.toNat, rfl, vdecFloat_leBytes P p⟩
  · exact ⟨text ++ [0x00], rfl, congrArg (fun u => Except.ok (Value.str u)) (takeWhile_text h0 [])⟩
  · exact ⟨[if t then 0x01 else 0x00], rfl, by cases t <;> rfl⟩

/-! ### The commands of the reassembler (R91, R97, R98) -/

/-- A frame as the response writes it. -/
theorem Frame.marshal_bytes (f : Frame) :
    f.marshal = [f.dest.extractLsb' 0 8, f.dest.extractLsb' 8 8, f.src.extractLsb' 0 8, f.src.extractLsb' 8 8, f.func] ++
      countBytes f.payload.length ++ f.payload := by
  simp [Frame.marshal, le16, encodeCounted]

/-- Frames one after the other as the response writes them. -/
theorem marshal_frames (frames : List Frame) :
    (frames.map Frame.marshal).flatten = frames.flatMap fun f =>
      [f.dest.extractLsb' 0 8, f.dest.extractLsb' 8 8, f.src.extractLsb' 0 8, f.src.extractLsb' 8 8, f.func] ++
        countBytes f.payload.length ++ f.payload := by
  rw [List.flatMap_def, funext Frame.marshal_bytes]

/-- Only a bounded capacity overflows. -/
theorem overflows_iff (P : Params) (n : Nat) : overflows P n = true ↔ ∃ cap, P.rbufCap = some cap ∧ cap.bytes < n := by
  unfold overflows
  split
  next h => simp [h]
  next cap h => simp [h]

/-- STATUS after the fault. -/
theorem statusWithFault_shortLength (status : Byte) :
    statusWithFault status Cause.shortLength.code = 0x80 ||| (status &&& 0x70) ||| 0x01 := by
  rw [statusWithFault, BitVec.or_comm (status &&& 0x70)]
  rfl

/-- Settles O47, by what a feed can end with. -/
theorem rsmFeedResult : Obligations.RsmFeedResult := by
  refine ⟨overflows_iff _, fun n => overflows_eq_false _, fun chunk s hrun => ?_⟩
  rw [exec_running hrun, endingOf]
  obtain ⟨hover, h⟩ | ⟨hover, ⟨rest, frames, hparse, h⟩ | ⟨hparse, h⟩⟩ := feedEnding_cases Config.params s.block chunk
  · rw [h, hover, finish_err]
    rfl
  · rw [h, hover, hparse, finish_ok, Result.marshal, marshal_frames]
    rfl
  · rw [h, hover, hparse, finish_raise, Block.raiseFault, statusWithFault_shortLength]
    rfl

/-- Settles O53: the ending of the command. -/
theorem rsmRstResult : Obligations.RsmRstResult := ⟨rfl, fun _ hrun => exec_running hrun .rsmRst⟩

/-- Settles O54: the level is the count field of RBUF's length. -/
theorem rsmLvlResult : Obligations.RsmLvlResult :=
  ⟨rfl, fun s hrun => ⟨countBytes s.block.rbuf.length, exec_running hrun .rsmLvl, countBytes_length _, countBytes_eq⟩⟩

/-! ### The loop of the reassembler, step by step (R92 to R96) -/

/-- A pass that waits ends the parse. -/
theorem parseStream_of_exit {buf rest : Bytes} (h : onePass buf = .exit rest) : parseStream buf = .done rest [] := by
  rw [parseStream_eq, h]

/-- A pass that accepts puts its frame in front. -/
theorem parseStream_of_accept {buf rest : Bytes} {f : Frame} (h : onePass buf = .accept f rest) :
    parseStream buf = (parseStream rest).cons f := by
  rw [parseStream_eq, h]

/-- A pass that rejects goes on with the rest. -/
theorem parseStream_of_reject {buf rest : Bytes} (h : onePass buf = .reject rest) :
    parseStream buf = parseStream rest := by
  rw [parseStream_eq, h]

/-- A pass that meets a short frame faults. -/
theorem parseStream_of_shortLength {buf : Bytes} (h : onePass buf = .shortLength) : parseStream buf = .shortLength := by
  rw [parseStream_eq, h]

/-- Noise in front of a buffer is discarded. -/
theorem parseStream_noise {noise : Bytes} (h : startByte ∉ noise) (t : Bytes) :
    parseStream (noise ++ t) = parseStream t := by
  rw [parseStream_eq, parseStream_eq t, onePass, onePass, seekStart_noise noise t h]

/-- Noise alone is discarded whole. -/
theorem parseStream_noise_only {noise : Bytes} (h : startByte ∉ noise) : parseStream noise = .done [] [] := by
  have := parseStream_noise h []
  rwa [List.append_nil] at this

/-- A slice of a slice. -/
theorem slice_slice (s : Bytes) {a b c d : Nat} (h : a + d ≤ b) : slice (slice s a b) c d = slice s (a + c) (a + d) := by
  simp only [slice, List.drop_take, List.drop_drop, List.take_take]
  congr 1
  omega

/-- The length field of a buffer that has one, byte by byte. -/
theorem lengthField_bytes {b : Bytes} (h : 3 ≤ b.length) :
    lengthField b = (b.getD 1 0).toNat + 256 * (b.getD 2 0).toNat := by
  rw [lengthField, slice_two (a := 1) h]
  simp [unLE]

/-- Both checks of a whole candidate at the front of the buffer, byte by byte. -/
theorem candidatePasses_bytes {b : Bytes} {L : Nat} (h : L + 6 ≤ b.length) :
    candidatePasses (b.take (L + 6)) L = true ↔
      (crc16 (slice b 1 (3 + L))).toNat = 256 * (b.getD (3 + L) 0).toNat + (b.getD (4 + L) 0).toNat ∧
        b.getD (5 + L) 0 = 0x16 := by
  have hbody : slice (b.take (L + 6)) 1 (3 + L) = slice b 1 (3 + L) := slice_take _ _ _ _ (by omega)
  have hsum : slice (b.take (L + 6)) (3 + L) (5 + L) = [b.getD (3 + L) 0, b.getD (4 + L) 0] := by
    rw [slice_take _ _ _ _ (by omega), show 5 + L = (3 + L) + 2 by omega, slice_two (by omega)]
    congr 3; omega
  have hstop : (b.take (L + 6)).getD (5 + L) 0 = b.getD (5 + L) 0 := by
    simp only [List.getD_eq_getElem?_getD, List.getElem?_take_of_lt (show 5 + L < L + 6 by omega)]
  rw [candidatePasses, hbody, hsum, hstop, Bool.and_eq_true, decide_eq_true_iff, decide_eq_true_iff]
  simp [unBE16, Nat.mul_comm, stopByte]

/-- The frame of an accepted candidate, byte by byte. -/
theorem fdec_candidate {b : Bytes} {L : Nat} (h5 : 5 ≤ L) (h : L + 6 ≤ b.length) :
    fdec (slice (b.take (L + 6)) 1 (3 + L)) =
      { dest := BitVec.ofNat 16 ((b.getD 3 0).toNat + 256 * (b.getD 4 0).toNat)
        src := BitVec.ofNat 16 ((b.getD 5 0).toNat + 256 * (b.getD 6 0).toNat)
        func := b.getD 7 0
        payload := slice b 8 (3 + L) } := by
  have hfunc : (slice b 1 (3 + L)).getD 6 0 = b.getD 7 0 := by
    rw [slice, List.getD_eq_getElem?_getD, List.getElem?_take_of_lt (by omega), List.getElem?_drop,
      List.getD_eq_getElem?_getD]
  have hpayload : (slice b 1 (3 + L)).drop 7 = slice b 8 (3 + L) := by
    rw [slice, slice, List.drop_take, List.drop_drop]
    congr 1
  rw [slice_take _ _ _ _ (by omega), fdec, slice_slice b (by omega), slice_slice b (by omega), hfunc, hpayload,
    slice_two (a := 3) (by omega), slice_two (a := 5) (by omega)]
  simp [unLE]

/-- Settles O49: the noise is discarded, and the examination of what is left is followed branch by branch. -/
theorem parseFollowsTheSevenSteps : Obligations.ParseFollowsTheSevenSteps := by
  refine ⟨fun noise h => parseStream_noise_only h, fun noise t h => ?_⟩
  intro b L
  have hseek : onePass b = examine b := congrArg examine (seekStart_start t)
  rw [parseStream_noise h]
  by_cases h3 : b.length < 3
  · rw [if_pos (.inl h3)]
    exact parseStream_of_exit (by rw [hseek, examine, if_pos h3])
  have hL : lengthField b = L := lengthField_bytes (not_lt.mp h3)
  obtain ⟨hexam, hshort⟩ | ⟨-, hwhole, hexam⟩ := examine_cases b <;> rw [← hseek] at hexam
  · rw [if_pos (by omega), parseStream_of_exit hexam]
  rw [hL] at hwhole hexam
  rw [if_neg (by omega)]
  have hpass := candidatePasses_bytes hwhole
  obtain ⟨hc, h5, hexam⟩ | ⟨hc, h5, hexam⟩ | ⟨hc, hexam⟩ := hexam
  · rw [if_pos (hpass.mp hc), if_pos h5, parseStream_of_shortLength hexam]
  · rw [if_pos (hpass.mp hc), if_neg (by omega), parseStream_of_accept hexam, fdec_candidate h5 hwhole]
    cases parseStream (b.drop (L + 6)) <;> rfl
  · rw [if_neg (fun hyes => absurd (hpass.mpr hyes) (by rw [hc]; decide)), parseStream_of_reject hexam]
    rfl

/-- A running block with a legal STATUS has STATUS 0x00. -/
theorem status_of_running {s : State} (hrun : s.running) (h : statusLegal s.block.status = true) :
    s.block.status = 0x00 := by
  obtain h0 | h81 := Bool.or_eq_true_iff.mp h
  · exact of_decide_eq_true h0
  · have hfault : statusFault s.block.status = true := congrArg statusFault (of_decide_eq_true h81 : s.block.status = 0x81)
    rw [show statusFault s.block.status = false from hrun] at hfault
    cases hfault

/-- Settles O56: the length field is 0, the checksum of two zero bytes is zero, and the stop byte follows. -/
theorem smallestShortFrameFaults : Obligations.SmallestShortFrameFaults := by
  intro s hrun hlegal hempty
  have hcrc : (crc16 [0x00, 0x00]).toNat = 0 := congrArg BitVec.toNat (crc16_zeros 2)
  have hparse : parseStream [0x68, 0x00, 0x00, 0x00, 0x00, 0x16] = .shortLength := by
    obtain ⟨-, hsteps⟩ := parseFollowsTheSevenSteps
    exact (hsteps [] [0x00, 0x00, 0x00, 0x00, 0x16] List.not_mem_nil).trans
      ((if_neg (by decide)).trans ((if_pos ⟨hcrc, rfl⟩).trans (if_pos (by decide))))
  have hfits : overflows Config.params (([] : Bytes).length + 6) = false := overflows_eq_false _ (by decide)
  obtain ⟨-, -, hfeed⟩ := rsmFeedResult
  rw [hfeed _ s hrun, hempty, List.nil_append, hparse, status_of_running hrun hlegal,
    show overflows Config.params (([] : Bytes).length + ([0x68, 0x00, 0x00, 0x00, 0x00, 0x16] : Bytes).length) = false
      from hfits]
  rfl

/-! ### Chunks (R99 b) -/

/-- Frames in front of those of a parse. -/
def Parse.prepend (fs : List Frame) : Parse → Parse
  | .done buf frames => .done buf (fs ++ frames)
  | .shortLength => .shortLength

/-- The parse goes on with more bytes behind the buffer it has left. -/
def Parse.resume (y : Bytes) : Parse → Parse
  | .done rest frames => (parseStream (rest ++ y)).prepend frames
  | .shortLength => .shortLength

theorem Parse.prepend_nil (p : Parse) : p.prepend [] = p := by cases p <;> rfl

theorem Parse.resume_cons (y : Bytes) (f : Frame) (p : Parse) : (p.cons f).resume y = (p.resume y).cons f := by
  cases p with
  | done rest frames => simp only [Parse.cons, Parse.resume]; cases parseStream (rest ++ y) <;> rfl
  | shortLength => rfl

/-- More bytes behind a buffer that holds a start byte do not change where the noise ends. -/
theorem seekStart_append_of_ne {u : Bytes} (h : seekStart u ≠ []) (y : Bytes) : seekStart (u ++ y) = seekStart u ++ y := by
  obtain hnil | ⟨t, ht⟩ := seekStart_head u
  · exact absurd hnil h
  · rw [seekStart_append, ht, List.cons_append, seekStart_start]

/-- Behind a pass that waits, more bytes are parsed with what it has left. -/
theorem parseStream_append_of_exit {u rest : Bytes} (h : onePass u = .exit rest) (y : Bytes) :
    parseStream (u ++ y) = parseStream (rest ++ y) := by
  have hrest : rest = seekStart u := by
    obtain ⟨hexam, -⟩ | ⟨-, -, ⟨-, -, hexam⟩ | ⟨-, -, hexam⟩ | ⟨-, hexam⟩⟩ := examine_cases (seekStart u) <;>
      rw [onePass, hexam] at h <;> cases h
    rfl
  rw [parseStream_eq, parseStream_eq (rest ++ y), onePass, onePass, hrest, seekStart_append]

/-- What a pass does, with more bytes behind what it leaves. -/
def Pass.extend (y : Bytes) : Pass → Pass
  | .exit rest => .exit (rest ++ y)
  | .accept f rest => .accept f (rest ++ y)
  | .reject rest => .reject (rest ++ y)
  | .shortLength => .shortLength

/-- A pass that decides on a candidate decides the same with more bytes behind. -/
theorem onePass_append {u : Bytes} (h : ∀ rest, onePass u ≠ .exit rest) (y : Bytes) :
    onePass (u ++ y) = (onePass u).extend y := by
  obtain ⟨hexam, -⟩ | ⟨h3, hL, -⟩ := examine_cases (seekStart u)
  · exact absurd hexam (h _)
  have hne : seekStart u ≠ [] := List.ne_nil_of_length_pos (by omega)
  rw [onePass, seekStart_append_of_ne hne, examine_append _ _ h3 hL, onePass]
  cases hexam : examine (seekStart u) with
  | exit rest => exact absurd hexam (h rest)
  | accept | reject | shortLength => rfl

/-- Parsing a buffer and more bytes is parsing the buffer and going on with those bytes, by induction on the buffer's length. -/
theorem parseStream_append (u y : Bytes) : parseStream (u ++ y) = (parseStream u).resume y := by
  induction hn : u.length using Nat.strong_induction_on generalizing u with | _ n ih => ?_
  obtain ⟨haccept, hreject⟩ := pass_shortens u
  cases hp : onePass u with
  | exit rest =>
    rw [parseStream_append_of_exit hp, parseStream_of_exit hp, Parse.resume, Parse.prepend_nil]
  | accept f rest =>
    have hpass := onePass_append (u := u) (by simp [hp]) y
    rw [hp] at hpass
    obtain ⟨hlt, -⟩ := haccept f rest hp
    rw [parseStream_of_accept hpass, parseStream_of_accept hp, Parse.resume_cons, ih _ (hn ▸ hlt) rest rfl]
  | reject rest =>
    have hpass := onePass_append (u := u) (by simp [hp]) y
    rw [hp] at hpass
    obtain ⟨hlt, -⟩ := hreject rest hp
    rw [parseStream_of_reject hpass, parseStream_of_reject hp, ih _ (hn ▸ hlt) rest rfl]
  | shortLength =>
    have hpass := onePass_append (u := u) (by simp [hp]) y
    rw [hp] at hpass
    rw [parseStream_of_shortLength hpass, parseStream_of_shortLength hp, Parse.resume]

/-- An unbounded RBUF holds everything. -/
theorem overflows_unbounded {P : Params} (h : P.rbufCap = none) (n : Nat) : overflows P n = false := by
  rw [overflows, h]

/-- A feed to an unbounded RBUF ends as the parse does. -/
theorem feedEnding_unbounded {P : Params} (h : P.rbufCap = none) (b : Block) (chunk : Bytes) :
    (∃ rest frames, parseStream (b.rbuf ++ chunk) = .done rest frames ∧
      feedEnding P b chunk = .ok (b.setRbuf rest) (.frames frames)) ∨
    (parseStream (b.rbuf ++ chunk) = .shortLength ∧ feedEnding P b chunk = .raise .shortLength) := by
  obtain ⟨hover, -⟩ | ⟨-, hend⟩ := feedEnding_cases P b chunk
  · rw [overflows_unbounded h] at hover
    cases hover
  · exact hend

/-- Settles O50: the parse of both chunks is the parse of the first, resumed with the second. -/
theorem chunkingDoesNotMatter : Obligations.ChunkingDoesNotMatter := by
  intro P b x y hcap
  have happend : parseStream (b.rbuf ++ (x ++ y)) = (parseStream (b.rbuf ++ x)).resume y := by
    rw [← List.append_assoc, parseStream_append]
  obtain ⟨rest, fs, hx, hfeed⟩ | ⟨hx, hfeed⟩ := feedEnding_unbounded hcap b x <;> rw [hfeed] <;> rw [hx] at happend
  · dsimp only
    obtain ⟨rest', fs', hy, hfeed'⟩ | ⟨hy, hfeed'⟩ := feedEnding_unbounded hcap (b.setRbuf rest) y <;>
      rw [setRbuf_rbuf] at hy <;> rw [Parse.resume, hy] at happend <;> rw [hfeed'] <;> dsimp only
    · exact feedEnding_done (overflows_unbounded hcap _) happend
    · obtain ⟨_, _, hdone, -⟩ | ⟨-, hraise⟩ := feedEnding_unbounded hcap b (x ++ y)
      · rw [happend] at hdone; cases hdone
      · exact hraise
  · dsimp only
    obtain ⟨_, _, hdone, -⟩ | ⟨-, hraise⟩ := feedEnding_unbounded hcap b (x ++ y)
    · rw [happend] at hdone; cases hdone
    · exact hraise

/-! ### Whole and corrupted frames (R99 c, d, e) -/

/-- Settles O51: the noise is discarded and the frame is accepted whole. -/
theorem frameBehindNoiseIsExtracted : Obligations.FrameBehindNoiseIsExtracted := by
  intro noise rest dest src func payload hnoise hlen
  rw [List.append_assoc, parseStream_noise hnoise, parseStream_fenc_append dest src func payload rest hlen]
  cases parseStream rest <;> rfl

/-- A byte of a sequence can be told from the checksum of the sequence with that byte replaced. -/
theorem crc16_set_inj {m : Bytes} {j : Nat} (hj : j < m.length) {b : Byte} (h : crc16 (m.set j b) = crc16 m) :
    b = m.getD j 0 := by
  by_contra hne
  have hold : m = m.take j ++ [m[j]] ++ m.drop (j + 1) := by simp
  have hnew : m.set j b = m.take j ++ [b] ++ m.drop (j + 1) := by
    rw [List.set_eq_take_append_cons_drop, if_pos hj]; simp
  rw [List.getD_eq_getElem _ _ hj] at hne
  obtain ⟨-, -, hbyte⟩ := burstOfSixteenBitsChangesCrc (m.take j) (m.drop (j + 1)) 1 (by decide)
  exact hbyte b m[j] hne (by rw [← hnew, ← hold]; exact h)

/-- Two bytes that read as a number, high byte first, are that number's two bytes. -/
theorem be16_of_unBE16 {x y : Byte} {v : BitVec 16} (h : v.toNat = unBE16 [x, y]) : be16 v = [x, y] := by
  have hx := x.isLt
  have hy := y.isLt
  have hv : v.toNat = x.toNat * 256 + y.toNat := h
  simp only [be16, List.cons.injEq, and_true]
  constructor <;> apply BitVec.eq_of_toNat_eq <;>
    simp only [BitVec.extractLsb'_toNat, Nat.shiftRight_eq_div_pow, hv] <;> omega

/-- A slice falls into the slices before and behind a place in it. -/
theorem slice_split (w : Bytes) {a b c : Nat} (hab : a ≤ b) (hbc : b ≤ c) : slice w a c = slice w a b ++ slice w b c := by
  rw [slice, slice, slice, show c - a = (b - a) + (c - b) by omega, List.take_add, List.drop_drop,
    show a + (b - a) = b by omega]

/-- The covered bytes and the checksum of a candidate that passes have checksum zero. -/
theorem crc16_of_candidatePasses {w : Bytes} {L : Nat} (hlen : w.length = L + 6) (h : candidatePasses w L = true) :
    crc16 (slice w 1 (5 + L)) = 0x0000 := by
  obtain ⟨hsum, -⟩ := Bool.and_eq_true_iff.mp h
  have hsum := of_decide_eq_true hsum
  have htwo : slice w (3 + L) (5 + L) = [w.getD (3 + L) 0, w.getD (4 + L) 0] := by
    rw [show 5 + L = (3 + L) + 2 by omega, slice_two (by omega), show 3 + L + 1 = 4 + L by omega]
  rw [htwo] at hsum
  rw [slice_split w (show 1 ≤ 3 + L by omega) (show 3 + L ≤ 5 + L by omega), htwo, ← be16_of_unBE16 hsum]
  exact crc16_residue _

/-- Replacing a byte behind the first of a slice replaces it in the slice. -/
theorem slice_set (w : Bytes) {i a e : Nat} (h : a ≤ i) (b : Byte) :
    slice (w.set i b) a e = (slice w a e).set (i - a) b := by
  rw [slice, slice, List.drop_set, if_neg (by omega), List.take_set]

section Corrupted
variable {dest src : BitVec 16} {func : Byte} {payload : Bytes} {i : Nat} {b : Byte}

/-- A frame with one changed byte behind its length field fails a check: the stop byte, or by R72 (c) the checksum. -/
theorem candidatePasses_corrupted (h3 : 3 ≤ i) (hi : i < payload.length + 11)
    (hb : b ≠ (fenc dest src func payload).getD i 0) :
    candidatePasses ((fenc dest src func payload).set i b) (payload.length + 5) = false := by
  by_contra hpass
  have hpass := Bool.eq_true_of_not_eq_false hpass
  have hlen : ((fenc dest src func payload).set i b).length = payload.length + 5 + 6 := by simp
  by_cases hstop : i = payload.length + 10
  · obtain ⟨-, hlast⟩ := Bool.and_eq_true_iff.mp hpass
    have hlast := of_decide_eq_true hlast
    rw [show 5 + (payload.length + 5) = i by omega, List.getD_eq_getElem _ _ (by omega), List.getElem_set_self] at hlast
    rw [hstop, fenc_getD_stop] at hb
    exact hb hlast
  · have hzero := crc16_of_candidatePasses hlen hpass
    have horig := crc16_of_candidatePasses (fenc_length dest src func payload) (candidatePasses_fenc dest src func payload)
    rw [slice_set _ (by omega)] at hzero
    have hj : i - 1 < (slice (fenc dest src func payload) 1 (5 + (payload.length + 5))).length := by
      rw [slice_length _ _ _ (by simp; omega)]; omega
    have hbyte := crc16_set_inj hj (hzero.trans horig.symm)
    rw [slice, List.getD_eq_getElem?_getD, List.getElem?_take_of_lt (by omega), List.getElem?_drop,
      show 1 + (i - 1) = i by omega, ← List.getD_eq_getElem?_getD] at hbyte
    exact hb hbyte

/-- The length field of a frame with a byte changed behind it. -/
theorem lengthField_corrupted (h3 : 3 ≤ i) (hlen : payload.length ≤ 65530) :
    lengthField ((fenc dest src func payload).set i b) = payload.length + 5 := by
  rw [← lengthField_fenc dest src func payload hlen, lengthField, lengthField, slice_set _ (by omega)]
  congr 1
  exact List.set_eq_of_length_le (by rw [slice_length _ _ _ (by simp)]; omega)

end Corrupted

/-- Settles O52: the changed frame is a whole candidate that fails, so its pass drops the start byte only. -/
theorem corruptedFrameIsRejected : Obligations.CorruptedFrameIsRejected := by
  intro dest src func payload rest i b hlen h3 hi hb
  generalize hw : (fenc dest src func payload).set i b = w
  have hwlen : w.length = payload.length + 11 := by rw [← hw]; simp
  have hfield : lengthField w = payload.length + 5 := by rw [← hw]; exact lengthField_corrupted h3 hlen
  have hfails : candidatePasses w (payload.length + 5) = false := by
    rw [← hw]; exact candidatePasses_corrupted h3 hi hb
  have hstart : seekStart w = w := by
    obtain ⟨j, rfl⟩ := Nat.exists_eq_add_of_le' (show 1 ≤ i by omega)
    rw [← hw, fenc_eq, List.set_cons_succ]
    exact seekStart_start _
  have hpass : onePass w = .reject (w.drop 1) := by
    have hwhole : w.take (lengthField w + 6) = w := List.take_of_length_le (by omega)
    obtain ⟨-, hshort⟩ | ⟨-, -, ⟨hc, -⟩ | ⟨hc, -⟩ | ⟨-, hexam⟩⟩ := examine_cases w
    · omega
    · rw [hwhole, hfield, hfails] at hc; cases hc
    · rw [hwhole, hfield, hfails] at hc; cases hc
    · rw [onePass, hstart, hexam]
  have hpassRest : onePass (w ++ rest) = .reject (w.drop 1 ++ rest) := by
    rw [onePass_append (by simp [hpass]), hpass]
    rfl
  exact parseStream_of_reject hpassRest

/-! ### The invariant of the block (R12, R13, R24, R99 a) -/

/-- The restarted block meets the invariant. -/
theorem restart_inv (b : Block) : b.restart.Inv := ⟨rfl, overflows_eq_false _ (Nat.zero_le _), rfl⟩

/-- Settles O57: the reset block is the restarted block. -/
theorem resetMeetsTheBlockInvariant : Obligations.ResetMeetsTheBlockInvariant := restart_inv Block.reset

/-- The invariant speaks of RBUF and STATUS only. -/
theorem Block.Inv.of_eq {b b' : Block} (h : b.Inv) (hrbuf : b'.rbuf = b.rbuf) (hstatus : b'.status = b.status) : b'.Inv := by
  rw [Block.Inv, hrbuf, hstatus]
  exact h

/-- Fewer bytes overflow no more. -/
theorem overflows_mono {P : Params} {m n : Nat} (hmn : m ≤ n) (h : overflows P n = false) : overflows P m = false := by
  rw [Bool.eq_false_iff, Ne, overflows_iff] at h ⊢
  rintro ⟨cap, hcap, hlt⟩
  exact h ⟨cap, hcap, by omega⟩

/-- A fault keeps the invariant. -/
theorem raiseFault_inv {b : Block} (h : b.Inv) (c : Cause) : (b.raiseFault c).Inv := by
  obtain ⟨hsettled, hfits, hlegal⟩ := h
  refine ⟨hsettled, hfits, ?_⟩
  cases c
  obtain h0 | h81 := Bool.or_eq_true_iff.mp hlegal
  · rw [raiseFault_status, (of_decide_eq_true h0 : b.status = 0x00)]; rfl
  · rw [raiseFault_status, (of_decide_eq_true h81 : b.status = 0x81)]; rfl

/-- A feed keeps the invariant: what its parse leaves is a settled suffix of bytes that fitted. -/
theorem finish_feedEnding_inv {s : State} (h : s.block.Inv) (chunk : Bytes) :
    (s.finish (feedEnding Config.params s.block chunk)).block.Inv := by
  obtain ⟨-, hend⟩ | ⟨hfits, ⟨rest, frames, hparse, hend⟩ | ⟨-, hend⟩⟩ := feedEnding_cases Config.params s.block chunk <;>
    rw [hend]
  · exact h
  · obtain ⟨-, -, hlegal⟩ := h
    obtain ⟨hsettled, hsuffix⟩ := parseStream_done hparse
    have hle : rest.length ≤ s.block.rbuf.length + chunk.length := by simpa using hsuffix.length_le
    exact ⟨hsettled, overflows_mono hle hfits, hlegal⟩
  · exact raiseFault_inv h .shortLength

/-- Every command's own ending keeps the invariant: only a feed, RSM.RST and RESET write RBUF or STATUS. -/
theorem finish_endingOf_inv {s : State} (h : s.block.Inv) (i : Instr) : (s.finish (endingOf i s)).block.Inv := by
  cases hw : writesRbuf i || writesStatus i with
  | false =>
    obtain ⟨hrbuf, hstatus⟩ := Bool.or_eq_false_iff.mp hw
    obtain ⟨-, hr, hs⟩ := (finish_endingOf_mayWrite i s).frame
    exact Block.Inv.of_eq h (hr hrbuf) (hs hstatus)
  | true =>
    cases i with
    | rsmFeed chunk => exact finish_feedEnding_inv h chunk
    | rsmRst =>
      obtain ⟨-, -, hlegal⟩ := h
      exact ⟨rfl, overflows_eq_false _ (Nat.zero_le _), hlegal⟩
    | reset => exact restart_inv s.block
    | _ => cases hw

/-- Every command keeps the invariant, on a faulted block by changing nothing. -/
theorem exec_inv {s t : State} {i : Instr} (h : s.block.Inv) (hexec : exec i s = .next t) : t.block.Inv := by
  rw [exec_eq] at hexec
  cases hexec
  split
  · exact h
  · exact finish_endingOf_inv h i

/-- Settles O58, by what has been presented: nothing, the platform's reset, a packet that spells no command, or a command. -/
theorem everyStepKeepsTheBlockInvariant : Obligations.EveryStepKeepsTheBlockInvariant := by
  intro s t h hstep
  rcases hinbox : s.inbox with _ | ⟨⟨p⟩ | _, rest⟩
  · rw [step_of_nil hinbox] at hstep
    cases hstep
    exact h
  · cases hdecode : decode p with
    | error e =>
      rw [step_of_decode_error hinbox hdecode] at hstep
      cases hstep
      exact h
    | ok i =>
      rw [stepRunsTheDecodedCommand s p rest i hinbox hdecode] at hstep
      exact exec_inv (s := { s with inbox := rest }) h hstep
  · rw [step_of_platformReset hinbox] at hstep
    cases hstep
    exact restart_inv s.block

end Sys2Proof.Machine
end
